-- ==== Sys2Proof/Word.lean ====
section
/-! DEFINITION. The bit vectors of the BFU: storage words, operands, bytes of the hex stream, the command word and its
bank fields (spec/00_scope.md R5, R6, R10, R11; spec/30_encoding.md R49, R50). -/

namespace Sys2Proof

/-- A storage word, a 64-bit operand or a 64-bit result: `u64` (R5, R6). -/
abbrev Word := BitVec 64

/-- One byte of the hex stream (R53). -/
abbrev Byte := BitVec 8

/-- The 32-bit command word `CW` (R49). -/
abbrev CmdWord := BitVec 32

/-- A bank index as the command word carries it, 4 bits (R50, R27). -/
abbrev BankIx := BitVec 4

end Sys2Proof
end

