-- ==== Sys2Proof/Config.lean ====
section
/-! DEFINITION. What an implementation fixes: the parameters of spec/00_scope.md R5 to R9, and the free values of
spec/10_state.md R29. -/

namespace Sys2Proof

/-- The parameters a model takes as arguments: `NBANKS` (R7) and `WMAX` (R8). -/
structure Config where
  /-- `NBANKS`, the number of storage banks (R7). -/
  nbanks : Nat
  /-- `WMAX`, the number of 64-bit words of each bank's word array (R8). -/
  wmax : Nat
  deriving DecidableEq, Repr

namespace Config

/-- The constraints of R7 and R8: `2 <= NBANKS <= 16`, `1 <= WMAX <= 2^32`. -/
abbrev Ok (c : Config) : Prop := 2 ≤ c.nbanks ∧ c.nbanks ≤ 16 ∧ 1 ≤ c.wmax ∧ c.wmax ≤ 2 ^ 32

/-- This hardware: `NBANKS = 4`, `WMAX = 16` (R7, R8). -/
def bfu : Config := ⟨4, 16⟩

/-- `WORD_BITS` (R5), fixed by the source. -/
abbrev wordBits : Nat := 64

/-- `FIELD_INT_MAX`, the largest length GETFI accepts (R9). -/
abbrev fieldIntMax : Nat := 64

/-- `HEX_DIGITS_PER_WORD` (R9). -/
abbrev hexDigitsPerWord : Nat := 16

/-- FREE VALUE. `resetWord n b k` is what `words[b][k]` holds after the `n`-th reset asserted in a run: "an unspecified
value" (R29, R102; 93 U7). It has no body, so nothing can be proved of it. Marked in log 4. -/
opaque resetWord : Nat → Nat → Nat → Word

end Config

end Sys2Proof
end

