-- ==== Sys2Proof/Syntax.lean ====
section
/-! DEFINITION. The commands of BFU command set 1.0 as the host presents them (spec/30_encoding.md R49) and as the
decoder reads them (R51, R54): one constructor of `Instr` per row of spec/opcode_table.json. -/

namespace Sys2Proof

/-- A command as it stands on the command port: 224 bits in four parts (R49). -/
structure Command where
  /-- The command word `CW`. -/
  cw : CmdWord
  /-- Operand `A`: an offset, a bit length or a word index. -/
  a : Word
  /-- Operand `B`: a length or a word count. -/
  b : Word
  /-- Operand `V`: a data value. -/
  v : Word
  deriving DecidableEq, Repr

/-- The nine opcodes, in the order of R54. -/
inductive Opcode where
  | ldw | new | free | len | setf | setfi | getf | getfi | hex
  deriving DecidableEq, Repr

/-- A decoded command with the operands it uses (R51); the operands R51 marks "ignored" do not appear (R59).
`bt` is "this bank", `bo` the "other bank" (R50). -/
inductive Instr where
  /-- `LDW kT, index, value` (R67): `a` word index, `v` the word. -/
  | ldw (bt : BankIx) (a v : Word)
  /-- `NEW kT, bitLength, wordCount` (R68). -/
  | new (bt : BankIx) (a b : Word)
  /-- `FREE kT` (R69). -/
  | free (bt : BankIx)
  /-- `LEN kT` (R70). -/
  | len (bt : BankIx)
  /-- `SETF kT, offset, kO` (R74): `bt` destination, `bo` source. -/
  | setf (bt bo : BankIx) (a : Word)
  /-- `SETFI kT, offset, length, value` (R76). -/
  | setfi (bt : BankIx) (a b v : Word)
  /-- `GETF kO, kT, offset, length` (R78): `bt` source, `bo` the bank that receives the new instance. -/
  | getf (bt bo : BankIx) (a b : Word)
  /-- `GETFI kT, offset, length` (R80). -/
  | getfi (bt : BankIx) (a b : Word)
  /-- `HEX kT` (R83). -/
  | hex (bt : BankIx)
  deriving DecidableEq, Repr

namespace Instr

/-- The opcode of an instruction (R54). -/
def opcode : Instr → Opcode
  | ldw _ _ _ => .ldw
  | new _ _ _ => .new
  | free _ => .free
  | len _ => .len
  | setf _ _ _ => .setf
  | setfi _ _ _ _ => .setfi
  | getf _ _ _ _ => .getf
  | getfi _ _ _ => .getfi
  | hex _ => .hex

/-- The field `bt` of an instruction: every command names one bank (R51). -/
def bt : Instr → BankIx
  | ldw bt _ _ => bt
  | new bt _ _ => bt
  | free bt => bt
  | len bt => bt
  | setf bt _ _ => bt
  | setfi bt _ _ _ => bt
  | getf bt _ _ _ => bt
  | getfi bt _ _ => bt
  | hex bt => bt

/-- The field `bo` of an instruction, where it uses one: SETF and GETF alone (R50, R51). -/
def bo? : Instr → Option BankIx
  | setf _ bo _ => some bo
  | getf _ bo _ _ => some bo
  | ldw _ _ _ => none
  | new _ _ _ => none
  | free _ => none
  | len _ => none
  | setfi _ _ _ _ => none
  | getfi _ _ _ => none
  | hex _ => none

end Instr

end Sys2Proof
end

