-- ==== Sys2Proof/WellFormed.lean ====
section
/-! DEFINITION. Which instructions the command set has under a configuration: the bank indexes they name exist
(spec/30_encoding.md R55 step 4, R58). Every operand value is legal (R59), so nothing else is checked. -/

namespace Sys2Proof

/-- R55 step 4, R58: `bt < NBANKS`, and `bo < NBANKS` where the command uses `bo`. -/
abbrev Instr.WellFormed (cfg : Config) (i : Instr) : Prop :=
  i.bt.toNat < cfg.nbanks ∧ ∀ bo ∈ i.bo?, bo.toNat < cfg.nbanks

end Sys2Proof
end

