-- ==== Sys2Proof/Decode.lean ====
section
/-! DEFINITION. Decoding and encoding of commands (spec/30_encoding.md R49 to R60). Decoding is total on the 224 bits of
a command and rejects by name; the encoder is written from the same tables. -/

namespace Sys2Proof

/-! ## The fields of the command word (R50) -/

namespace Command

/-- `op`, `CW[7:0]`. -/
def op (c : Command) : BitVec 8 := c.cw.extractLsb' 0 8

/-- `bt`, `CW[11:8]`. -/
def bt (c : Command) : BankIx := c.cw.extractLsb' 8 4

/-- `bo`, `CW[15:12]`. -/
def bo (c : Command) : BankIx := c.cw.extractLsb' 12 4

/-- `rsv`, `CW[31:16]`, must be 0. -/
def rsv (c : Command) : BitVec 16 := c.cw.extractLsb' 16 16

/-- A command from one number: `CW` in bits 31:0, then `A`, `B`, `V`, 64 bits each. The spec gives the four parts and no
numbering over all of them; the order is log 7's (DESIGN CHOICE). -/
def ofBits (w : Nat) : Command :=
  { cw := BitVec.ofNat 32 w
    a := BitVec.ofNat 64 (w / 2 ^ 32)
    b := BitVec.ofNat 64 (w / 2 ^ 96)
    v := BitVec.ofNat 64 (w / 2 ^ 160) }

/-- The number `ofBits` reads back. -/
def toBits (c : Command) : Nat :=
  c.cw.toNat + c.a.toNat * 2 ^ 32 + c.b.toNat * 2 ^ 96 + c.v.toNat * 2 ^ 160

end Command

/-! ## The opcode map (R54) -/

namespace Opcode

/-- The opcode number of a command (R54). -/
def code : Opcode → BitVec 8
  | ldw => 0x01
  | new => 0x02
  | free => 0x03
  | len => 0x04
  | setf => 0x05
  | setfi => 0x06
  | getf => 0x07
  | getfi => 0x08
  | hex => 0x09

/-- Whether the command uses the field `bo` (R54, the column "uses `bo`"). -/
def usesBo : Opcode → Bool
  | setf => true
  | getf => true
  | ldw => false
  | new => false
  | free => false
  | len => false
  | setfi => false
  | getfi => false
  | hex => false

/-- The command an opcode number spells; 0x00 and 0x0A to 0xFF are reserved (R54, R56). -/
def ofCode? (n : BitVec 8) : Option Opcode :=
  if n = 0x01 then some ldw
  else if n = 0x02 then some new
  else if n = 0x03 then some free
  else if n = 0x04 then some len
  else if n = 0x05 then some setf
  else if n = 0x06 then some setfi
  else if n = 0x07 then some getf
  else if n = 0x08 then some getfi
  else if n = 0x09 then some hex
  else none

/-- The bits of `CW` a command fixes, as R54 and spec/opcode_table.json give them: all but `bt`, and all but `bt` and
`bo` where the command uses `bo`. -/
def mask (o : Opcode) : CmdWord := if o.usesBo then 0xFFFF00FF else 0xFFFFF0FF

/-- What the fixed bits hold (R54): the opcode number. -/
def pattern (o : Opcode) : CmdWord := o.code.setWidth 32

end Opcode

/-! ## Decoding (R55) -/

/-- Why a command word spells no command. All four are answered `ILLEGAL_COMMAND` (R55, R89). -/
inductive DecodeError where
  /-- R55 step 1, R57: `CW[31:16]` is not 0. -/
  | reservedField
  /-- R55 step 2, R56: `op` is not in 0x01 to 0x09. -/
  | reservedOpcode
  /-- R55 step 3, R57: `bo` is not 0 in a command that does not use it. -/
  | unusedBoNotZero
  /-- R55 step 4, R58: a bank index is not below `NBANKS`. -/
  | noSuchBank
  deriving DecidableEq, Repr

/-- The command of opcode `o` with the operands of R51. -/
def Opcode.build (o : Opcode) (c : Command) : Instr :=
  match o with
  | ldw => .ldw c.bt c.a c.v
  | new => .new c.bt c.a c.b
  | free => .free c.bt
  | len => .len c.bt
  | setf => .setf c.bt c.bo c.a
  | setfi => .setfi c.bt c.a c.b c.v
  | getf => .getf c.bt c.bo c.a c.b
  | getfi => .getfi c.bt c.a c.b
  | hex => .hex c.bt

/-- Decoding, total, in the order of R55. -/
def decode (cfg : Config) (c : Command) : Except DecodeError Instr :=
  if c.rsv ≠ 0 then .error .reservedField
  else
    match Opcode.ofCode? c.op with
    | none => .error .reservedOpcode
    | some o =>
      if o.usesBo = false ∧ c.bo ≠ 0 then .error .unusedBoNotZero
      else if cfg.nbanks ≤ c.bt.toNat ∨ (o.usesBo = true ∧ cfg.nbanks ≤ c.bo.toNat) then .error .noSuchBank
      else .ok (o.build c)

/-! ## Encoding (R50, R51, R54, and the "Encoding" line of every command's rule) -/

/-- `CW` of a command: `op | (bt << 8) | (bo << 12)` (R67 to R70, R74, R76, R78, R80, R83). -/
def encodeCw (o : Opcode) (bt bo : BankIx) : CmdWord :=
  o.code.setWidth 32 ||| (bt.setWidth 32 <<< 8) ||| (bo.setWidth 32 <<< 12)

/-- The command of an instruction. An operand it does not use is written 0 (R59 allows any value; log 10). -/
def encode : Instr → Command
  | .ldw bt a v => ⟨encodeCw .ldw bt 0, a, 0, v⟩
  | .new bt a b => ⟨encodeCw .new bt 0, a, b, 0⟩
  | .free bt => ⟨encodeCw .free bt 0, 0, 0, 0⟩
  | .len bt => ⟨encodeCw .len bt 0, 0, 0, 0⟩
  | .setf bt bo a => ⟨encodeCw .setf bt bo, a, 0, 0⟩
  | .setfi bt a b v => ⟨encodeCw .setfi bt 0, a, b, v⟩
  | .getf bt bo a b => ⟨encodeCw .getf bt bo, a, b, 0⟩
  | .getfi bt a b => ⟨encodeCw .getfi bt 0, a, b, 0⟩
  | .hex bt => ⟨encodeCw .hex bt 0, 0, 0, 0⟩

/-- What the decoder of this hardware (`NBANKS = 4`) reads from the low `nbits` bits of `w`, every higher bit of the
224 being 0. -/
def decodeTableWord (nbits w : Nat) : Option Instr :=
  match decode Config.bfu (Command.ofBits (w % 2 ^ nbits)) with
  | .ok i => some i
  | .error _ => none

end Sys2Proof
end

