-- ==== Sys2Proof/Machine/State.lean ====
section
/-! DEFINITION. The state of the BFU as plain data (spec/10_state.md R13 to R30), the two ports as the host sees them
(spec/30_encoding.md R52, R64; spec/70_reset_and_hazards.md R103, R107, R108), and the state after reset. -/

namespace Sys2Proof.Machine

/-! ## Responses (R52, R86) -/

/-- The status codes that exist (R86); 7 to 15 are never produced. Their numbers are `Status.code` (Flags.lean). -/
inductive Status where
  /-- 0: the command succeeded. -/
  | ok
  /-- 1, R87: NEW, `words.count * 64 < bitLength`. -/
  | capacityError
  /-- 2, R88: a field is not inside `[0, bitLength)`, or a GETFI length is above 64. -/
  | rangeError
  /-- 3, R89: `CW` spells no command. -/
  | illegalCommand
  /-- 4, R90: the command needs an instance in a bank that is free. -/
  | noInstance
  /-- 5, R91: LDW or NEW on a bank that holds an instance. -/
  | bankInUse
  /-- 6, R92: beyond the physical array. -/
  | limitError
  deriving DecidableEq, Repr

/-- The answer to one command (R52). -/
structure Response where
  /-- The status, 4 bits on the port. -/
  status : Status
  /-- The 64-bit `data`. -/
  data : Word
  /-- The hex stream, first character first; empty for every command but a successful HEX. -/
  bytes : List Byte
  deriving DecidableEq, Repr

/-- What stands on the response port: a response the host has not taken, and how many bytes of its hex stream the host
has taken already (R64: the bytes precede the response; R108: the unit waits for both). -/
structure Pending where
  response : Response
  bytesTaken : Nat
  deriving DecidableEq, Repr

/-! ## The host's side (R107, R108) -/

/-- What the host can do to the unit, and nothing else (R107). -/
inductive HostInput where
  /-- Present a command on the command port. -/
  | command (c : Command)
  /-- Take one byte of the hex stream. -/
  | takeByte
  /-- Take what is left of the hex stream and then the response. -/
  | take
  /-- Assert reset (R102, R103). -/
  | reset
  deriving DecidableEq, Repr

/-! ## Banks (R14 to R18) -/

/-- One storage bank: its descriptor and its word array. -/
structure Bank where
  /-- `valid[b]` (R15): whether the bank holds an instance. -/
  valid : Bool
  /-- `bitlen[b]` (R16): the instance's `bitLength`. -/
  bitlen : Word
  /-- `wcount[b]` (R17): the instance's `words.count`, a natural number. -/
  wcount : Nat
  /-- `words[b][0 .. WMAX-1]` (R18), word 0 first. -/
  words : List Word
  deriving DecidableEq, Repr

/-! ## The state -/

/-- The state of the unit (R13: `banks`, and nothing else of the unit) with its two ports and the build parameters. -/
structure State where
  /-- MODEL's own field: the build parameters `NBANKS` and `WMAX`; no step writes it (log 2). -/
  cfg : Config
  /-- The `NBANKS` banks, bank 0 first (R14). -/
  banks : List Bank
  /-- The response port: the response not yet taken (R30, R64, R103, R108; log 5). -/
  pending : Option Pending
  /-- MODEL's own field: what the host does next, first first (log 1). -/
  inputs : List HostInput
  /-- MODEL's own field: the responses the host has taken, first first (R113; log 6). -/
  responses : List Response
  /-- MODEL's own field: how many times the host has asserted reset; it indexes the free values (R29; log 4). -/
  resets : Nat
  deriving DecidableEq, Repr

/-- Why a step could stop with a fault. There is none: an error of a command is an outcome of the step, with the state
unchanged and a response, "not a fault that ends the run" (R98), and no input hangs the unit (R115). -/
inductive Fault where
  deriving DecidableEq, Repr

/-- Why a step could answer no meaning. -/
inductive Refusal where
  /-- Raised by an arm of `exec` whose instruction has no meaning yet; no arm of this model raises it. Safe: the run
  stops. -/
  | notModelled (mnemonic : String)
  deriving DecidableEq, Repr

/-! ## Reset (R28 to R30, R102) -/

/-- The banks after a reset: `valid`, `bitlen` and `wcount` 0 in every bank (R28), and words the caller gives, since R29
leaves them unspecified. -/
def banksAfterReset (cfg : Config) (word : Nat → Nat → Word) : List Bank :=
  (List.range cfg.nbanks).map fun b => ⟨false, 0, 0, (List.range cfg.wmax).map (word b)⟩

/-- The machine after power-on with the word arrays holding `word`: no response pending (R30, R103), nothing presented by
the host. -/
def State.afterReset (cfg : Config) (word : Nat → Nat → Word) : State :=
  { cfg := cfg, banks := banksAfterReset cfg word, pending := none, inputs := [], responses := [], resets := 0 }

/-- This hardware right after reset. Every word is 0: DESIGN CHOICE, unsafe (log 3); R29 gives no value, so no statement
about reset rests on it. -/
def State.reset : State := State.afterReset Config.bfu fun _ _ => 0

end Sys2Proof.Machine
end

