-- ==== Sys2Proof/Machine/Flags.lean ====
section
/-! DEFINITION. The BFU has no flags, condition codes or predicates (spec/10_state.md R25): the outcome of a command is
the status of its response. Here stand the status numbers (spec/60_exceptions.md R86) and the two forms a response takes
(spec/00_scope.md R12: `respond` and `raise`). -/

namespace Sys2Proof.Machine

/-- The 4-bit number of a status (R52, R86). -/
def Status.code : Status → BitVec 4
  | ok => 0
  | capacityError => 1
  | rangeError => 2
  | illegalCommand => 3
  | noInstance => 4
  | bankInUse => 5
  | limitError => 6

/-- The response of `respond(data, bytes)` (R12). -/
def Response.success (data : Word) (bytes : List Byte) : Response := ⟨.ok, data, bytes⟩

/-- The response of `raise <Status>(info)` (R12, R94): the bytes of an error response are empty. -/
def Response.error (status : Status) (info : Word) : Response := ⟨status, info, []⟩

end Sys2Proof.Machine
end

