-- ==== Sys2Proof/Machine/Operands.lean ====
section
/-! DEFINITION. What commands compute from their operands alone: bit addressing (spec/20_memory.md R31), the range
predicate (R47), `ceil(n / 64)`, masks and single bits of a 64-bit value (spec/00_scope.md R11, R117). -/

namespace Sys2Proof.Machine

/-- `wordIndex = index / 64` (R31, R117 (c)). -/
def wordIndex (index : Nat) : Nat := index / 64

/-- `bitOffset = index % 64`, 0 to 63 (R31, R117 (c)). -/
def bitOffset (index : Nat) : Nat := index % 64

/-- `ceil(n / 64) = (n + 63) / 64` on naturals (R11, R117 (d)). -/
def wordsFor (n : Nat) : Nat := (n + 63) / 64

/-- `mask(n) = 2^n - 1` as a 64-bit value, all ones for `n = 64`, by cases (R38, R77, R117 (f)). -/
def mask (n : Nat) : Word := if n < 64 then BitVec.ofNat 64 (2 ^ n - 1) else BitVec.allOnes 64

/-- Bit `i` of a 64-bit value, `(value >> i) & 1`, and 0 at 64 and above: the shift is never evaluated there (R37, R76;
93 U2). -/
def valueBit (v : Word) (i : Nat) : Bool := if i < 64 then (v >>> i) &&& 1#64 == 1#64 else false

/-- The sum of a range check: naturals, exact, no wrap-around (R11, R47, R117 (a)). -/
def rangeEnd (off : Word) (len : Nat) : Nat := off.toNat + len

end Sys2Proof.Machine
end

