-- ==== Sys2Proof/Machine/Ops.lean ====
section
/-! DEFINITION. The named operations over the banks: reads and writes of descriptors and words (spec/00_scope.md R12),
how a command ends (`respond`, `raise`), the bit primitives (spec/41_bit_primitives.md R71 to R73), `MemRead` and
`MemWrite` in both forms (spec/20_memory.md R36 to R39), and the loops of SETF and GETF. -/

namespace Sys2Proof.Machine

/-- The three outcomes of a meaning. -/
abbrev Result := Host.Outcome State Fault Refusal

/-- What reading a bank that does not exist gives: no instance and no words. No command gets there (R55 step 4). -/
def Bank.absent : Bank := ⟨false, 0, 0, []⟩

/-- `words[b][k]` of a bank; 0 beyond the word array, where no command reads (R20 I2, I3; log 14). -/
def Bank.word (bk : Bank) (k : Nat) : Word := bk.words.getD k 0

namespace State

/-! ## Reads (R12) -/

/-- Bank `b`. -/
def bank (s : State) (b : Nat) : Bank := s.banks.getD b Bank.absent

/-- `valid[b]` (R15). -/
def valid (s : State) (b : Nat) : Bool := (s.bank b).valid

/-- `bitlen[b]` (R16). -/
def bitlen (s : State) (b : Nat) : Word := (s.bank b).bitlen

/-- `wcount[b]` (R17). -/
def wcount (s : State) (b : Nat) : Nat := (s.bank b).wcount

/-- `words[b][k]` (R18). -/
def word (s : State) (b k : Nat) : Word := (s.bank b).word k

/-- Bit `i` of the word array of bank `b`, whether or not it belongs to the instance: bit `i % 64` of
`words[b][i / 64]` (R19, R31). For observing padding and residual words; no command but HEX reads those. -/
def bit (s : State) (b i : Nat) : Bool := (s.word b (wordIndex i)).getLsbD (bitOffset i)

/-- Whether a bank index is below `NBANKS` (R55 step 4, R58). -/
def hasBank (s : State) (b : BankIx) : Bool := decide (b.toNat < s.cfg.nbanks)

/-- `InRange(b, off, len)`: `nat(off) + nat(len) <= nat(bitlen[b])`, on naturals (R47). -/
def inRange (s : State) (b : Nat) (off : Word) (len : Nat) : Bool := decide (rangeEnd off len ≤ (s.bitlen b).toNat)

/-! ## Writes (R12) -/

/-- Write a whole bank. -/
def setBank (s : State) (b : Nat) (bk : Bank) : State := { s with banks := s.banks.set b bk }

/-- Write the descriptor of bank `b`; its words stay (R24, R48). -/
def setDescriptor (s : State) (b : Nat) (valid : Bool) (bitlen : Word) (wcount : Nat) : State :=
  s.setBank b { s.bank b with valid := valid, bitlen := bitlen, wcount := wcount }

/-- Write `words[b]` whole; the descriptor stays. -/
def setWords (s : State) (b : Nat) (ws : List Word) : State := s.setBank b { s.bank b with words := ws }

/-- `words[b][k] <- w`. -/
def setWord (s : State) (b k : Nat) (w : Word) : State := s.setWords b ((s.bank b).words.set k w)

/-! ## How a command ends (R12, R94, R97)

The BFU has no exception entry and no return: an error goes out in the response of its command, nothing is saved and
control goes nowhere (R94), and "there is nothing to return from" (R97). -/

/-- Put a response on the response port (R66: one response per command). -/
def withResponse (s : State) (r : Response) : State := { s with pending := some ⟨r, 0⟩ }

/-- `respond(data, bytes)`: the command ends with `OK` (R12, R65). -/
def respond (s : State) (data : Word) (bytes : List Byte) : Result := .next (s.withResponse (.success data bytes))

/-- `raise <Status>(info)`: the command ends at once, no state is changed (R12, R94, R95). -/
def raise (s : State) (status : Status) (info : Word) : Result := .next (s.withResponse (.error status info))

/-! ## The bit primitives (R71, R72). `none` is `IndexError`, which no command reaches (R73; log 8) -/

/-- `getBit(b, index)` (R71). -/
def getBit (s : State) (b index : Nat) : Option Bool :=
  if (s.bitlen b).toNat ≤ index then none
  else some ((s.word b (wordIndex index) >>> bitOffset index) &&& 1#64 == 1#64)

/-- `setBit(b, index, value)` (R72): OR or AND-NOT with a 64-bit single-bit mask. -/
def setBit (s : State) (b index : Nat) (value : Bool) : Option State :=
  if (s.bitlen b).toNat ≤ index then none
  else
    let w := s.word b (wordIndex index)
    let m := 1#64 <<< bitOffset index
    some (s.setWord b (wordIndex index) (if value then w ||| m else w &&& ~~~m))

/-! ## `MemWrite` and `MemRead`, bit by bit (R36, R37) -/

/-- The loop of R37 from field bit `i` on, `n` bits to go, increasing. -/
def writeBits (b addr : Nat) (v : Word) : (n i : Nat) → State → Option State
  | 0, _, s => some s
  | n + 1, i, s =>
    match s.setBit b (addr + i) (valueBit v i) with
    | none => none
    | some t => writeBits b addr v n (i + 1) t

/-- `MemWrite(b, addr, n, v)` (R37). -/
def memWrite (s : State) (b addr n : Nat) (v : Word) : Option State := writeBits b addr v n 0 s

/-- The loop of R36 and R80 from field bit `i` on: `if getBit = 1 then r <- r | (1 << i)`. -/
def readBits (s : State) (b addr : Nat) : (n i : Nat) → Word → Option Word
  | 0, _, r => some r
  | n + 1, i, r =>
    match s.getBit b (addr + i) with
    | none => none
    | some x => readBits s b addr n (i + 1) (if x then r ||| (1#64 <<< i) else r)

/-- `zext_64(MemRead(b, addr, n))`, `n <= 64` (R36, R80). -/
def memRead (s : State) (b addr n : Nat) : Option Word := readBits s b addr n 0 0

/-! ## The word-level forms, "the masking and shifting a datapath does" (R38, R39) -/

/-- `MemRead` on words (R38), `n <= 64`; 0 for `n = 0` (R36). -/
def memReadWords (s : State) (b addr n : Nat) : Word :=
  let q := wordIndex addr
  let sh := bitOffset addr
  if sh + n ≤ 64 then (s.word b q >>> sh) &&& mask n
  else ((s.word b q >>> sh) ||| (s.word b (q + 1) <<< (64 - sh))) &&& mask n

/-- `MemWrite` on words for `1 <= n <= 64` (R39); for `n = 0` it writes nothing. -/
def memWriteWords (s : State) (b addr n : Nat) (v : Word) : State :=
  let q := wordIndex addr
  let sh := bitOffset addr
  let vv := v &&& mask n
  if sh + n ≤ 64 then s.setWord b q ((s.word b q &&& ~~~(mask n <<< sh)) ||| (vv <<< sh))
  else
    let n0 := 64 - sh
    let n1 := n - n0
    let t := s.setWord b q ((s.word b q &&& ~~~(mask n0 <<< sh)) ||| ((vv &&& mask n0) <<< sh))
    t.setWord b (q + 1) ((t.word b (q + 1) &&& ~~~(mask n1)) ||| (vv >>> n0))

/-! ## The loops of SETF (R74) and GETF (R78) -/

/-- The loop of SETF: `setBit(bt, addr + i, getBit(bo, i))`, increasing. It reads `bo` as the loop has left it, which
matters only for `bt = bo` and is not observable there (R75). -/
def copyBits (bt addr bo : Nat) : (n i : Nat) → State → Option State
  | 0, _, s => some s
  | n + 1, i, s =>
    match s.getBit bo i with
    | none => none
    | some x =>
      match s.setBit bt (addr + i) x with
      | none => none
      | some t => copyBits bt addr bo n (i + 1) t

/-- The loop of GETF: `if getBit(bt, addr + i) = 1 then tmp[i / 64] <- tmp[i / 64] | (1 << (i % 64))` with a 64-bit one
and a 64-bit shift (R78, R82). -/
def extractBits (s : State) (b addr : Nat) : (n i : Nat) → List Word → Option (List Word)
  | 0, _, tmp => some tmp
  | n + 1, i, tmp =>
    match s.getBit b (addr + i) with
    | none => none
    | some x =>
      extractBits s b addr n (i + 1)
        (if x then tmp.set (wordIndex i) (tmp.getD (wordIndex i) 0 ||| (1#64 <<< bitOffset i)) else tmp)

/-- The words GETF commits: `tmp[k]` at `k < n`, the old words above (R78, R79 (c)). -/
def overlay : List Word → List Word → List Word
  | [], old => old
  | _ :: _, [] => []
  | x :: xs, _ :: old => x :: overlay xs old

/-- The commit of GETF into bank `b` (R78). -/
def commitInstance (s : State) (b : Nat) (bitlen : Word) (tmp : List Word) : State :=
  s.setBank b ⟨true, bitlen, tmp.length, overlay tmp (s.bank b).words⟩

end State

end Sys2Proof.Machine
end

