-- ==== Sys2Proof/Machine/Extract.lean ====
section
/-! DEFINITION. GETF and GETFI (spec/43_field_extract.md R78 to R82). -/

namespace Sys2Proof.Machine

/-- `GETF kO, kT, offset, length` (R78, R79): every read of bank `bt` is made before the commit, so `bo = bt` is
defined. -/
def execGetf (bt bo : BankIx) (a b : Word) (s : State) : Result :=
  if s.hasBank bt = false ∨ s.hasBank bo = false then s.raise .illegalCommand 0
  else if s.valid bt.toNat = false then s.raise .noInstance 0
  else if s.inRange bt.toNat a b.toNat = false then s.raise .rangeError (s.bitlen bt.toNat)
  else
    match s.extractBits bt.toNat a.toNat b.toNat 0 (List.replicate (wordsFor b.toNat) 0) with
    | none => s.raise .rangeError (s.bitlen bt.toNat)
    | some tmp => (s.commitInstance bo.toNat b tmp).respond 0 []

/-- `GETFI kT, offset, length` (R80): the length is capped at 64. -/
def execGetfi (bt : BankIx) (a b : Word) (s : State) : Result :=
  if s.hasBank bt = false then s.raise .illegalCommand 0
  else if s.valid bt.toNat = false then s.raise .noInstance 0
  else if Config.fieldIntMax < b.toNat ∨ s.inRange bt.toNat a b.toNat = false then s.raise .rangeError (s.bitlen bt.toNat)
  else
    match s.memRead bt.toNat a.toNat b.toNat with
    | none => s.raise .rangeError (s.bitlen bt.toNat)
    | some r => s.respond r []

end Sys2Proof.Machine
end

