-- ==== Sys2Proof/Machine/Insert.lean ====
section
/-! DEFINITION. SETF and SETFI (spec/42_field_insert.md R74 to R77). -/

namespace Sys2Proof.Machine

/-- `SETF kT, offset, kO` (R74, R75): the field length is `bitlen[bo]`. -/
def execSetf (bt bo : BankIx) (a : Word) (s : State) : Result :=
  if s.hasBank bt = false ∨ s.hasBank bo = false then s.raise .illegalCommand 0
  else if s.valid bt.toNat = false ∨ s.valid bo.toNat = false then s.raise .noInstance 0
  else if s.inRange bt.toNat a (s.bitlen bo.toNat).toNat = false then s.raise .rangeError (s.bitlen bt.toNat)
  else
    match State.copyBits bt.toNat a.toNat bo.toNat (s.bitlen bo.toNat).toNat 0 s with
    | none => s.raise .rangeError (s.bitlen bt.toNat)
    | some t => t.respond 0 []

/-- `SETFI kT, offset, length, value` (R76): no cap on the length; field bits 64 and above are written 0. -/
def execSetfi (bt : BankIx) (a b v : Word) (s : State) : Result :=
  if s.hasBank bt = false then s.raise .illegalCommand 0
  else if s.valid bt.toNat = false then s.raise .noInstance 0
  else if s.inRange bt.toNat a b.toNat = false then s.raise .rangeError (s.bitlen bt.toNat)
  else
    match s.memWrite bt.toNat a.toNat b.toNat v with
    | none => s.raise .rangeError (s.bitlen bt.toNat)
    | some t => t.respond 0 []

end Sys2Proof.Machine
end

