-- ==== Sys2Proof/Machine/Lifecycle.lean ====
section
/-! DEFINITION. LDW, NEW, FREE, LEN (spec/40_lifecycle.md R67 to R70). Every meaning starts with the bank check of
spec/30_encoding.md R55 step 4; a decoded command has passed it (log 9). -/

namespace Sys2Proof.Machine

/-- `LDW kT, index, value` (R67). -/
def execLdw (bt : BankIx) (a v : Word) (s : State) : Result :=
  if s.hasBank bt = false then s.raise .illegalCommand 0
  else if s.valid bt.toNat = true then s.raise .bankInUse 0
  else if s.cfg.wmax ≤ a.toNat then s.raise .limitError (BitVec.ofNat 64 s.cfg.wmax)
  else (s.setWord bt.toNat a.toNat v).respond 0 []

/-- `NEW kT, bitLength, wordCount` (R68). -/
def execNew (bt : BankIx) (a b : Word) (s : State) : Result :=
  if s.hasBank bt = false then s.raise .illegalCommand 0
  else if s.valid bt.toNat = true then s.raise .bankInUse 0
  else if s.cfg.wmax < b.toNat then s.raise .limitError (BitVec.ofNat 64 s.cfg.wmax)
  else if b.toNat * 64 < a.toNat then s.raise .capacityError (BitVec.ofNat 64 (b.toNat * 64))
  else (s.setDescriptor bt.toNat true a b.toNat).respond 0 []

/-- `FREE kT` (R69): idempotent, the word array is not cleared. -/
def execFree (bt : BankIx) (s : State) : Result :=
  if s.hasBank bt = false then s.raise .illegalCommand 0
  else (s.setDescriptor bt.toNat false 0 0).respond 0 []

/-- `LEN kT` (R70). -/
def execLen (bt : BankIx) (s : State) : Result :=
  if s.hasBank bt = false then s.raise .illegalCommand 0
  else if s.valid bt.toNat = false then s.raise .noInstance 0
  else s.respond (s.bitlen bt.toNat) []

end Sys2Proof.Machine
end

