-- ==== Sys2Proof/Machine/Render.lean ====
section
/-! DEFINITION. HEX (spec/44_hex_render.md R83 to R85). -/

namespace Sys2Proof.Machine

/-- `hexchar(n)` as a byte of the hex stream: `0x30 + n` for `n <= 9`, `0x61 + (n - 10)` above, lower case (R84, R53). -/
def hexChar (n : BitVec 4) : Byte :=
  if n.toNat ≤ 9 then 0x30#8 + n.setWidth 8 else 0x61#8 + (n.setWidth 8 - 10#8)

/-- The 16 digits of one word, most-significant digit first (R83). -/
def hexWord (w : Word) : List Byte :=
  (List.range Config.hexDigitsPerWord).reverse.map fun d => hexChar (w.extractLsb' (4 * d) 4)

/-- The first `n` words of bank `b` rendered, the highest index first (R83). -/
def State.hexString (s : State) (b n : Nat) : List Byte :=
  (List.range n).reverse.flatMap fun k => hexWord (s.word b k)

/-- `HEX kT` (R83): every backing word, padding included. -/
def execHex (bt : BankIx) (s : State) : Result :=
  if s.hasBank bt = false then s.raise .illegalCommand 0
  else if s.valid bt.toNat = false then s.raise .noInstance 0
  else s.respond 0 (s.hexString bt.toNat (s.wcount bt.toNat))

end Sys2Proof.Machine
end

