-- ==== Sys2Proof/Machine/Dispatch.lean ====
section
/-! DEFINITION. One arm per command (spec/30_encoding.md R54). -/

namespace Sys2Proof.Machine

def exec (i : Instr) (s : State) : Host.Outcome State Fault Refusal :=
  match i with
  | .ldw bt a v => Sys2Proof.Machine.execLdw bt a v s
  | .new bt a b => Sys2Proof.Machine.execNew bt a b s
  | .free bt => Sys2Proof.Machine.execFree bt s
  | .len bt => Sys2Proof.Machine.execLen bt s
  | .setf bt bo a => Sys2Proof.Machine.execSetf bt bo a s
  | .setfi bt a b v => Sys2Proof.Machine.execSetfi bt a b v s
  | .getf bt bo a b => Sys2Proof.Machine.execGetf bt bo a b s
  | .getfi bt a b => Sys2Proof.Machine.execGetfi bt a b s
  | .hex bt => Sys2Proof.Machine.execHex bt s

end Sys2Proof.Machine
end

