-- ==== Sys2Proof/Machine/Port.lean ====
section
/-! DEFINITION. The two ports and the reset input (spec/30_encoding.md R64, R66; spec/70_reset_and_hazards.md R102,
R103, R107, R108), at the level of whole transfers. An input the handshake does not let happen yet stays where it is and
nothing changes (log 5). -/

namespace Sys2Proof.Machine

namespace Pending

/-- The bytes of the hex stream the host has not taken yet. -/
def bytesLeft (p : Pending) : List Byte := p.response.bytes.drop p.bytesTaken

end Pending

namespace State

/-! ## What stands on the pins (R64) -/

/-- `cmd_ready`: the unit takes a command only when no response is waiting to be taken (R64, R108). -/
def cmdReady (s : State) : Bool := s.pending.isNone

/-- The byte on the hex stream, where there is one (`hex_valid`, `hex_byte`). -/
def hexByte? (s : State) : Option Byte := s.pending.bind fun p => p.bytesLeft.head?

/-- `hex_last`: the byte on the hex stream is the final one. -/
def hexLast (s : State) : Bool :=
  match s.pending with
  | none => false
  | some p => p.bytesLeft.length == 1

/-- `rsp_valid`: a response is there and its bytes have been taken, "the bytes of a HEX response precede its
`rsp_valid`". -/
def rspValid (s : State) : Bool :=
  match s.pending with
  | none => false
  | some p => p.bytesLeft.isEmpty

/-! ## Transfers -/

/-- The next input of the host, where the handshake lets it happen: a command when the unit is ready, a byte when the hex
stream has one, a response when one is pending, reset at any time (R107, R108). -/
def nextInput (s : State) : Option HostInput :=
  match s.inputs with
  | [] => none
  | .command c :: _ => if s.cmdReady then some (.command c) else none
  | .takeByte :: _ => if s.hexByte?.isSome then some .takeByte else none
  | .take :: _ => if s.cmdReady then none else some .take
  | .reset :: _ => some .reset

/-- The state once the host's next input is consumed. -/
def consume (s : State) : State := { s with inputs := s.inputs.tail }

/-- The host takes one byte of the hex stream. -/
def takeByte (s : State) : State :=
  { s with pending := s.pending.map fun p => { p with bytesTaken := p.bytesTaken + 1 } }

/-- The host takes the rest of the hex stream and the response, which joins the responses of the run (R113). -/
def takeResponse (s : State) : State :=
  match s.pending with
  | none => s
  | some p => { s with pending := none, responses := s.responses ++ [p.response] }

/-- Reset (R102, R103): every bank free, the words unspecified (free values, log 4), a response not yet taken
cancelled. -/
def assertReset (s : State) : State :=
  { s with
    banks := banksAfterReset s.cfg (Config.resetWord s.resets)
    pending := none
    resets := s.resets + 1 }

/-- The answer to a command word that spells no command: `ILLEGAL_COMMAND`, `data` 0, no bytes, nothing else changed
(R55, R56, R89). -/
def rejectCommand (s : State) : Result := s.raise .illegalCommand 0

/-- The host presents a command as its next input, and has taken what stood on the response port, so that the unit is
ready. -/
def present (s : State) (c : Command) : State := { s.takeResponse with inputs := .command c :: s.inputs }

end State

/-- The inputs of a host that sends commands in order and takes each response before the next command (R108): how a
program of spec/95_test_vectors.md section 3 is sent. -/
def hostProgram (cs : List Command) : List HostInput := cs.flatMap fun c => [.command c, .take]

end Sys2Proof.Machine
end

