-- ==== Sys2Proof/Machine/Run.lean ====
section
/-! DEFINITION. Running one command the unit has taken (spec/30_encoding.md R55, R66). -/

namespace Sys2Proof.Machine

/-- A command the unit has taken: decode it and run it, or answer `ILLEGAL_COMMAND` (R55). -/
def runCommand (c : Command) (s : State) : Result :=
  match decode s.cfg c with
  | .ok i => exec i s
  | .error _ => s.rejectCommand

end Sys2Proof.Machine
end

