-- ==== Sys2Proof/Machine/Step.lean ====
section
/-! DEFINITION. One step: one transfer between the host and the unit. A command is one indivisible step, from its decode
to its response (spec/20_memory.md R42; spec/30_encoding.md R55). -/

namespace Sys2Proof.Machine

/-- One step. With no input that can happen the unit is idle "and keeps all state" (R101; log 15). -/
def step (s : State) : Host.Outcome State Fault Refusal :=
  match s.nextInput with
  | none => .next s
  | some (.command c) => runCommand c s.consume
  | some .takeByte => .next s.consume.takeByte
  | some .take => .next s.consume.takeResponse
  | some .reset => .next s.consume.assertReset

/-- `s` with the command of the low `nbits` bits of `w` (higher bits 0) presented to the unit, so that the very next step
takes and runs it. The BFU fetches nothing (R22): its next instruction is the next command the host sends. -/
def State.withFetchWord (s : State) (nbits w : Nat) : State := s.present (Command.ofBits (w % 2 ^ nbits))

end Sys2Proof.Machine
end

