-- ==== Sys2Proof/Machine/Pseudo.lean ====
section
/-! DEFINITION. The pseudo-instruction CREATE and the assembler text of the command set (spec/30_encoding.md R61, R62).
Text is a list of characters. What R61 leaves open of the text is log 16's. -/

namespace Sys2Proof.Machine

/-- `LDW kT, i, w0; LDW kT, i + 1, w1; ...` (R62). -/
def loadWords (bt : BankIx) : Nat → List Word → List Instr
  | _, [] => []
  | i, w :: ws => .ldw bt (BitVec.ofNat 64 i) w :: loadWords bt (i + 1) ws

/-- `CREATE kT, bitLength, words` expands to `n + 2` commands: FREE, an LDW per word, NEW (R62). -/
def create (bt : BankIx) (bitLength : Word) (words : List Word) : List Instr :=
  .free bt :: (loadWords bt 0 words ++ [.new bt bitLength (BitVec.ofNat 64 words.length)])

namespace Asm

/-! ## Writing -/

/-- A decimal digit. -/
def digitChar (n : Nat) : Char := Char.ofNat (48 + n)

/-- The decimal digits of a number with at most `fuel + 1` of them. -/
def decimal : Nat → Nat → List Char
  | 0, n => [digitChar (n % 10)]
  | fuel + 1, n => if n < 10 then [digitChar n] else decimal fuel (n / 10) ++ [digitChar (n % 10)]

/-- An operand in decimal; a 64-bit number has at most 20 digits. -/
def showWord (w : Word) : List Char := decimal 19 w.toNat

/-- `kN` (R61). -/
def showBank (b : BankIx) : List Char := 'k' :: decimal 1 b.toNat

/-- `MNEMONIC op, op, ...` (R61). -/
def showLine (mnemonic : List Char) : List (List Char) → List Char
  | [] => mnemonic
  | x :: xs => mnemonic ++ ' ' :: (x ++ xs.flatMap fun y => ',' :: ' ' :: y)

/-- An instruction in the text of R61; GETF names the receiving bank first. -/
def showInstr : Instr → List Char
  | .ldw bt a v => showLine ['L', 'D', 'W'] [showBank bt, showWord a, showWord v]
  | .new bt a b => showLine ['N', 'E', 'W'] [showBank bt, showWord a, showWord b]
  | .free bt => showLine ['F', 'R', 'E', 'E'] [showBank bt]
  | .len bt => showLine ['L', 'E', 'N'] [showBank bt]
  | .setf bt bo a => showLine ['S', 'E', 'T', 'F'] [showBank bt, showWord a, showBank bo]
  | .setfi bt a b v => showLine ['S', 'E', 'T', 'F', 'I'] [showBank bt, showWord a, showWord b, showWord v]
  | .getf bt bo a b => showLine ['G', 'E', 'T', 'F'] [showBank bo, showBank bt, showWord a, showWord b]
  | .getfi bt a b => showLine ['G', 'E', 'T', 'F', 'I'] [showBank bt, showWord a, showWord b]
  | .hex bt => showLine ['H', 'E', 'X'] [showBank bt]

/-! ## Reading -/

/-- The value of a digit in a base up to 16. -/
def digitValue (base : Nat) (c : Char) : Option Nat :=
  let n := c.toNat
  let d := if 48 ≤ n ∧ n ≤ 57 then n - 48 else if 97 ≤ n ∧ n ≤ 102 then n - 87 else if 65 ≤ n ∧ n ≤ 70 then n - 55 else 16
  if d < base then some d else none

/-- A number in a base, `_` between digits (R61). `started` says that the character before was a digit. -/
def readDigits (base : Nat) : List Char → Nat → Bool → Option Nat
  | [], acc, started => if started then some acc else none
  | c :: cs, acc, started =>
    if c = '_' then if started then readDigits base cs acc false else none
    else
      match digitValue base c with
      | none => none
      | some d => readDigits base cs (acc * base + d) true

/-- A 64-bit operand, decimal or hexadecimal with the prefix `0x` (R61). -/
def readWord (cs : List Char) : Option Word :=
  let n? :=
    match cs with
    | '0' :: 'x' :: ds => readDigits 16 ds 0 false
    | _ => readDigits 10 cs 0 false
  match n? with
  | none => none
  | some n => if n < 2 ^ 64 then some (BitVec.ofNat 64 n) else none

/-- `kN`, `N` in decimal 0 to 15 (R61). -/
def readBank : List Char → Option BankIx
  | 'k' :: ds =>
    match readDigits 10 ds 0 false with
    | none => none
    | some n => if n < 16 then some (BitVec.ofNat 4 n) else none
  | _ => none

/-- The text without the spaces before it. -/
def skipSpaces : List Char → List Char
  | [] => []
  | c :: cs => if c = ' ' then skipSpaces cs else c :: cs

/-- The text without the spaces around it. -/
def trim (cs : List Char) : List Char := (skipSpaces (skipSpaces cs).reverse).reverse

/-- The pieces of a text between commas. -/
def splitCommas : List Char → List (List Char)
  | [] => [[]]
  | c :: cs =>
    match splitCommas cs with
    | [] => [[c]]
    | p :: ps => if c = ',' then [] :: p :: ps else (c :: p) :: ps

/-- The operands of a line. -/
def operands (cs : List Char) : List (List Char) := (splitCommas cs).map trim

/-- The command of a mnemonic and its operands (R61). -/
def readInstr (mnemonic : List Char) (ops : List (List Char)) : Option Instr :=
  match mnemonic, ops with
  | ['L', 'D', 'W'], [t, a, v] => do return .ldw (← readBank t) (← readWord a) (← readWord v)
  | ['N', 'E', 'W'], [t, a, b] => do return .new (← readBank t) (← readWord a) (← readWord b)
  | ['F', 'R', 'E', 'E'], [t] => do return .free (← readBank t)
  | ['L', 'E', 'N'], [t] => do return .len (← readBank t)
  | ['S', 'E', 'T', 'F'], [t, a, o] => do return .setf (← readBank t) (← readBank o) (← readWord a)
  | ['S', 'E', 'T', 'F', 'I'], [t, a, b, v] =>
    do return .setfi (← readBank t) (← readWord a) (← readWord b) (← readWord v)
  | ['G', 'E', 'T', 'F'], [o, t, a, b] => do return .getf (← readBank t) (← readBank o) (← readWord a) (← readWord b)
  | ['G', 'E', 'T', 'F', 'I'], [t, a, b] => do return .getfi (← readBank t) (← readWord a) (← readWord b)
  | ['H', 'E', 'X'], [t] => do return .hex (← readBank t)
  | _, _ => none

/-- The opening brace of CREATE's word list. -/
def openBrace : Char := Char.ofNat 123

/-- The closing brace. -/
def closeBrace : Char := Char.ofNat 125

/-- The word list of CREATE: words between commas, or nothing (R62). -/
def readWords (cs : List Char) : Option (List Word) :=
  if trim cs = [] then some [] else (operands cs).mapM readWord

/-- The operands of CREATE: `kT, bitLength,` and a word list in braces (R62). -/
def readCreate (cs : List Char) : Option (List Instr) :=
  let body := (cs.dropWhile (· != openBrace)).tail
  match operands (cs.takeWhile (· != openBrace)), trim (body.dropWhile (· != closeBrace)) with
  | [t, a, []], [_] => do return create (← readBank t) (← readWord a) (← readWords (body.takeWhile (· != closeBrace)))
  | _, _ => none

/-- One line of assembler text, with its comment after `;` (R61): no command, one command, or those of CREATE (R62). -/
def readLine (cs : List Char) : Option (List Instr) :=
  match skipSpaces (cs.takeWhile (· != ';')) with
  | [] => some []
  | text =>
    let mnemonic := text.takeWhile (· != ' ')
    let rest := text.dropWhile (· != ' ')
    if mnemonic = ['C', 'R', 'E', 'A', 'T', 'E'] then readCreate rest
    else (readInstr mnemonic (operands rest)).map fun i => [i]

end Asm

end Sys2Proof.Machine
end

