-- ==== Sys2Proof/Safety.lean ====
section
/-! DEFINITION. The invariants of the state (spec/10_state.md R20, I1 to I3, with the shape R14 and R18 give the banks)
and what an error-free run is (spec/60_exceptions.md R98). -/

namespace Sys2Proof.Machine

/-- One bank under a configuration: R20 I1, I2, I3, and a word array of `WMAX` words (R18). -/
abbrev Bank.Ok (cfg : Config) (bk : Bank) : Prop :=
  (bk.valid = false → bk.bitlen = 0 ∧ bk.wcount = 0) ∧
    bk.wcount ≤ cfg.wmax ∧
    (bk.valid = true → bk.bitlen.toNat ≤ bk.wcount * 64) ∧
    bk.words.length = cfg.wmax

/-- What holds after reset and is kept by every step: the parameters are legal (R7, R8), there are `NBANKS` banks (R14),
each bank is as R20 says, and the host has not taken more hex bytes than the pending response has (R64). -/
abbrev State.Inv (s : State) : Prop :=
  s.cfg.Ok ∧
    s.banks.length = s.cfg.nbanks ∧
    (∀ bk ∈ s.banks, bk.Ok s.cfg) ∧
    ∀ p ∈ s.pending, p.bytesTaken ≤ p.response.bytes.length

/-- "No error occurred" is a property of the responses the host received (R98). -/
abbrev State.NoErrors (s : State) : Prop := ∀ r ∈ s.responses, r.status = .ok

end Sys2Proof.Machine
end

