-- ==== Sys2Proof/Certificates/Slice0/Obligations.lean ====
section
/-! DEFINITION. The statements for the provers, each from a numbered rule of spec/ or derived from its sections. They are
said through the observations of the state: `valid`, `bitlen`, `wcount`, `word`, `bit`, `bank`. -/

namespace Sys2Proof.Claims

open Sys2Proof.Machine

/-! ## Words the statements are made of -/

/-- The command ends with the response `r`, and nothing but the response port changes. -/
def Answers (i : Instr) (s : State) (r : Response) : Prop := exec i s = .next { s with pending := some ⟨r, 0⟩ }

/-- The command ends with a response of status `st`. -/
def AnswersStatus (i : Instr) (s : State) (st : Status) : Prop :=
  ∃ t p, exec i s = .next t ∧ t.pending = some p ∧ p.response.status = st

/-- The response port holds a new successful response. -/
def Succeeded (t : State) (data : Word) (bytes : List Byte) : Prop := t.pending = some ⟨⟨.ok, data, bytes⟩, 0⟩

/-- Everything but bank `b` and the response port is as it was. -/
def OnlyBank (b : Nat) (s t : State) : Prop :=
  t.cfg = s.cfg ∧ t.inputs = s.inputs ∧ t.responses = s.responses ∧ t.resets = s.resets ∧
    t.banks.length = s.banks.length ∧ ∀ b', b' ≠ b → t.bank b' = s.bank b'

/-- The descriptor of bank `b` is as it was. -/
def SameDescriptor (b : Nat) (s t : State) : Prop :=
  t.valid b = s.valid b ∧ t.bitlen b = s.bitlen b ∧ t.wcount b = s.wcount b

/-- The operands of R51: which of `A`, `B`, `V` an instruction has from the command. -/
def OperandsOf (c : Command) : Instr → Prop
  | .ldw _ a v => a = c.a ∧ v = c.v
  | .new _ a b => a = c.a ∧ b = c.b
  | .free _ => True
  | .len _ => True
  | .setf _ _ a => a = c.a
  | .setfi _ a b v => a = c.a ∧ b = c.b ∧ v = c.v
  | .getf _ _ a b => a = c.a ∧ b = c.b
  | .getfi _ a b => a = c.a ∧ b = c.b
  | .hex _ => True

/-- Two commands agree on the operands the table of R51 does not mark "ignored" for opcode number `op`. -/
def AgreeOnUsedOperands (op : Nat) (c c' : Command) : Prop :=
  (op = 1 → c.a = c'.a ∧ c.v = c'.v) ∧
    (op = 2 ∨ op = 7 ∨ op = 8 → c.a = c'.a ∧ c.b = c'.b) ∧
    (op = 5 → c.a = c'.a) ∧ (op = 6 → c.a = c'.a ∧ c.b = c'.b ∧ c.v = c'.v)

/-- The bank a command may write (the table of spec/10_state.md section 2): the other bank for GETF, none for LEN, GETFI
and HEX, this bank for the rest. -/
def writtenBank : Instr → Option Nat
  | .ldw bt _ _ => some bt.toNat
  | .new bt _ _ => some bt.toNat
  | .free bt => some bt.toNat
  | .len _ => none
  | .setf bt _ _ => some bt.toNat
  | .setfi bt _ _ _ => some bt.toNat
  | .getf _ bo _ _ => some bo.toNat
  | .getfi _ _ _ => none
  | .hex _ => none

/-- The banks a command reads or writes. -/
def namesBank (i : Instr) (b : Nat) : Prop := b = i.bt.toNat ∨ ∃ bo ∈ i.bo?, b = bo.toNat

/-- The frame of R48, command by command: what of bank `b` the command leaves as it was. -/
def FrameOf (s t : State) : Instr → Prop
  | .ldw bt a _ => SameDescriptor bt.toNat s t ∧ ∀ k, k ≠ a.toNat → t.word bt.toNat k = s.word bt.toNat k
  | .new bt _ _ => ∀ k, t.word bt.toNat k = s.word bt.toNat k
  | .free bt => ∀ k, t.word bt.toNat k = s.word bt.toNat k
  | .len _ => t.banks = s.banks
  | .setf bt bo a =>
    SameDescriptor bt.toNat s t ∧
      ∀ j, ¬ (a.toNat ≤ j ∧ j < a.toNat + (s.bitlen bo.toNat).toNat) → t.bit bt.toNat j = s.bit bt.toNat j
  | .setfi bt a b _ =>
    SameDescriptor bt.toNat s t ∧
      ∀ j, ¬ (a.toNat ≤ j ∧ j < a.toNat + b.toNat) → t.bit bt.toNat j = s.bit bt.toNat j
  | .getf _ bo _ b => ∀ k, (b.toNat + 63) / 64 ≤ k → t.word bo.toNat k = s.word bo.toNat k
  | .getfi _ _ _ => t.banks = s.banks
  | .hex _ => t.banks = s.banks

/-- Two states that show the same instances: the same parameters and descriptors, and the same bits inside every
instance; padding and residual words may differ. -/
def SameInstances (s s' : State) : Prop :=
  s.cfg = s'.cfg ∧ s.banks.length = s'.banks.length ∧
    ∀ b, SameDescriptor b s s' ∧ ∀ j, j < (s.bitlen b).toNat → s.bit b j = s'.bit b j

/-- The value of hexadecimal characters read as a base-16 number, most-significant digit first. -/
def hexValue (bytes : List Byte) : Nat :=
  bytes.foldl (fun acc c => acc * 16 + (if c.toNat < 0x3A then c.toNat - 0x30 else c.toNat - 0x61 + 10)) 0

/-- The commands of a list one after the other, each response taken before the next command; `none` where one does not
answer a next state. -/
def execAll : List Instr → State → Option State
  | [], s => some s
  | i :: is, s =>
    match exec i s with
    | .next t => execAll is t
    | .fault _ => none
    | .refused _ => none

end Sys2Proof.Claims

open Sys2Proof Sys2Proof.Machine Sys2Proof.Claims

/-! ## Encoding and decoding -/

/-- Tier 3. Decoding the encoding of a well-formed instruction gives it back, for every allowed and every other
configuration and every operand value (spec/30_encoding.md R50, R51, R54, R55). -/
def Obligations.DecodeEncodeRoundTrip : Prop :=
  ∀ (cfg : Config) (i : Instr), i.WellFormed cfg → decode cfg (encode i) = .ok i

/-- A command decodes to an instruction exactly when its command word has the instruction's fixed bits under its mask, its
fields name the instruction's banks, the banks exist, and the operands are the command's (R50, R51, R54, R55). -/
def Obligations.DecodesExactlyTheOpcodeMap : Prop :=
  ∀ (cfg : Config) (c : Command) (i : Instr),
    decode cfg c = .ok i ↔
      c.cw &&& i.opcode.mask = i.opcode.pattern ∧ i.bt = c.cw.extractLsb' 8 4 ∧
        (∀ bo ∈ i.bo?, bo = c.cw.extractLsb' 12 4) ∧ OperandsOf c i ∧ i.WellFormed cfg

/-- R56, R57, R58, R89: a reserved opcode, a non-zero reserved field, a non-zero unused `bo` or an absent bank is answered
`ILLEGAL_COMMAND`, `data` 0, no bytes, no other change. -/
def Obligations.IllegalWordsAreRefused : Prop :=
  ∀ (s : State) (c : Command) (rest : List HostInput), s.pending = none → s.inputs = .command c :: rest →
    (c.cw.extractLsb' 16 16 ≠ 0 ∨
      (c.cw.extractLsb' 0 8).toNat = 0 ∨ 9 < (c.cw.extractLsb' 0 8).toNat ∨
      (c.cw.extractLsb' 0 8 ≠ 5 ∧ c.cw.extractLsb' 0 8 ≠ 7 ∧ c.cw.extractLsb' 12 4 ≠ 0) ∨
      s.cfg.nbanks ≤ (c.cw.extractLsb' 8 4).toNat ∨
      ((c.cw.extractLsb' 0 8 = 5 ∨ c.cw.extractLsb' 0 8 = 7) ∧ s.cfg.nbanks ≤ (c.cw.extractLsb' 12 4).toNat)) →
    step s = .next { s with inputs := rest, pending := some ⟨⟨.illegalCommand, 0, []⟩, 0⟩ }

/-- Words written out from the encoding of each command (the examples of R67 to R83 and of spec/95_test_vectors.md). -/
def Obligations.SampleWordsDecode : Prop :=
  decode Config.bfu ⟨0x00000001, 1, 0, 0x0FEDCBA987654321⟩ = .ok (.ldw 0 1 0x0FEDCBA987654321) ∧
    decode Config.bfu ⟨0x00000202, 128, 2, 0⟩ = .ok (.new 2 128 2) ∧
    decode Config.bfu ⟨0x00000103, 0, 0, 0⟩ = .ok (.free 1) ∧
    decode Config.bfu ⟨0x00000104, 0, 0, 0⟩ = .ok (.len 1) ∧
    decode Config.bfu ⟨0x00001205, 40, 0, 0⟩ = .ok (.setf 2 1 40) ∧
    decode Config.bfu ⟨0x00000006, 16, 8, 0xAA⟩ = .ok (.setfi 0 16 8 0xAA) ∧
    decode Config.bfu ⟨0x00001007, 4, 8, 0⟩ = .ok (.getf 0 1 4 8) ∧
    decode Config.bfu ⟨0x00000208, 60, 8, 0⟩ = .ok (.getfi 2 60 8) ∧
    decode Config.bfu ⟨0x00000109, 0, 0, 0⟩ = .ok (.hex 1)

/-- R59: an operand the table of R51 marks "ignored" has no effect on the state or the response; nor has any operand of a
command word that spells no command (R89). -/
def Obligations.UnusedOperandsHaveNoEffect : Prop :=
  ∀ (s : State) (c c' : Command) (rest : List HostInput), s.pending = none → c.cw = c'.cw →
    AgreeOnUsedOperands (c.cw.extractLsb' 0 8).toNat c c' ∨ (∃ e, decode s.cfg c = .error e) →
    step { s with inputs := .command c :: rest } = step { s with inputs := .command c' :: rest }

/-- R61: the assembler text of every instruction reads back as that instruction. The text's details are log 16's. -/
def Obligations.AssemblerTextReadsBack : Prop := ∀ i : Instr, Asm.readLine (Asm.showInstr i) = some [i]

/-! ## Steps, responses and the host -/

/-- When the unit is ready and the host presents a command that decodes to a well-formed instruction, the step is `exec`
of it, the command consumed (R22, R42, R55, R107; the list of inputs is log 1's). -/
def Obligations.StepRunsDecodedCommand : Prop :=
  ∀ (s : State) (c : Command) (rest : List HostInput) (i : Instr), s.pending = none →
    s.inputs = .command c :: rest → decode s.cfg c = .ok i → step s = exec i { s with inputs := rest }

/-- R98, R115: no step stops; an error is an outcome of the step and no input hangs the unit. -/
def Obligations.EveryStepAnswersNext : Prop := ∀ s : State, ∃ t, step s = .next t

/-- From R66: a command taken, legal or not, is answered by one response in that step, and no response comes without a
command. How the host's record of responses grows, one at a time and in order, rests on log 6 (R113), and that a pending
response stays until the host takes it or asserts reset on log 5 (R103, R108). -/
def Obligations.OneResponsePerCommandInOrder : Prop :=
  (∀ (s : State) (c : Command) (rest : List HostInput), s.pending = none → s.inputs = .command c :: rest →
    ∃ t r, step s = .next t ∧ t.pending = some ⟨r, 0⟩ ∧ t.inputs = rest ∧ t.responses = s.responses) ∧
  (∀ s t, step s = .next t → s.pending = none → t.pending ≠ none → ∃ c rest, s.inputs = .command c :: rest) ∧
  (∀ s t, step s = .next t →
    t.responses = s.responses ∨
      ∃ p, s.pending = some p ∧ t.pending = none ∧ t.responses = s.responses ++ [p.response]) ∧
  (∀ s t p, step s = .next t → s.pending = some p →
    (∃ q, t.pending = some q ∧ q.response = p.response) ∨ t.responses = s.responses ++ [p.response] ∨
      ∃ rest, s.inputs = .reset :: rest)

/-- R108: no command is accepted while a response waits to be taken; the unit waits with everything unchanged (log 5). -/
def Obligations.CommandWaitsForResponse : Prop :=
  ∀ (s : State) (c : Command) (rest : List HostInput) (p : Pending), s.pending = some p →
    s.inputs = .command c :: rest → step s = .next s

/-- R64, R108: the host takes the bytes of the hex stream one by one, then the response; only the response port and the
host's own record change (log 5, log 6). -/
def Obligations.HostTakesBytesThenResponse : Prop :=
  (∀ (s : State) (p : Pending) (rest : List HostInput), s.pending = some p → s.inputs = .takeByte :: rest →
    (p.bytesTaken < p.response.bytes.length →
      s.hexByte? = p.response.bytes[p.bytesTaken]? ∧ s.rspValid = false ∧
        (s.hexLast = true ↔ p.bytesTaken + 1 = p.response.bytes.length) ∧
        step s = .next { s with pending := some { p with bytesTaken := p.bytesTaken + 1 }, inputs := rest }) ∧
    (p.response.bytes.length ≤ p.bytesTaken → s.rspValid = true ∧ s.hexByte? = none ∧ step s = .next s)) ∧
  (∀ (s : State) (p : Pending) (rest : List HostInput), s.pending = some p → s.inputs = .take :: rest →
    step s = .next { s with pending := none, inputs := rest, responses := s.responses ++ [p.response] })

/-- R109: no change of a bank without a command or reset; the parameters never change (log 2). -/
def Obligations.BanksChangeOnlyByCommandOrReset : Prop :=
  ∀ s t, step s = .next t →
    t.cfg = s.cfg ∧
      (t.banks = s.banks ∨ (∃ c rest, s.inputs = .command c :: rest ∧ s.pending = none) ∨
        ∃ rest, s.inputs = .reset :: rest)

/-! ## Reset -/

/-- R28: after reset no bank holds an instance, whatever the words hold; this hardware has `NBANKS = 4` and `WMAX = 16`
(R7, R8; log 2). -/
def Obligations.AfterResetEveryBankIsFree : Prop :=
  (∀ (cfg : Config) (w : Nat → Nat → Word) (b : Nat), b < cfg.nbanks →
    (State.afterReset cfg w).valid b = false ∧ (State.afterReset cfg w).bitlen b = 0 ∧
      (State.afterReset cfg w).wcount b = 0) ∧
  (∀ b, b < 4 → State.reset.valid b = false ∧ State.reset.bitlen b = 0 ∧ State.reset.wcount b = 0) ∧
    State.reset.cfg = ⟨4, 16⟩ ∧ State.reset.pending = none

/-- The invariants hold after reset, whatever the words hold (R20). -/
def Obligations.ResetMeetsInvariants : Prop :=
  (∀ (cfg : Config) (w : Nat → Nat → Word), cfg.Ok → (State.afterReset cfg w).Inv) ∧ State.reset.Inv

/-- R102, R103: reset asserted by the host, at any time: every bank free, the response port empty and a response not yet
taken cancelled, no response given. Of the words only their number is said. -/
def Obligations.AssertedResetFreesBanksAndCancels : Prop :=
  ∀ (s : State) (rest : List HostInput), s.inputs = .reset :: rest →
    ∃ t, step s = .next t ∧ t.pending = none ∧ t.responses = s.responses ∧ t.inputs = rest ∧ t.cfg = s.cfg ∧
      t.banks.length = s.cfg.nbanks ∧
      ∀ b, b < s.cfg.nbanks →
        t.valid b = false ∧ t.bitlen b = 0 ∧ t.wcount b = 0 ∧ (t.bank b).words.length = s.cfg.wmax

/-! ## Invariants -/

/-- Tier 3. I1, I2, I3 of R20 (the spec's own inference from the commands' rules), with the shape of the banks, are kept
by every step from every state that has them. -/
def Obligations.StepKeepsInvariants : Prop := ∀ s t, s.Inv → step s = .next t → t.Inv

/-- R73 (b), R20 (I4): in range, no loop of a field command meets `IndexError`. -/
def Obligations.IndexErrorNeverOccurs : Prop :=
  ∀ (s : State) (b addr n : Nat), s.Inv → b < s.cfg.nbanks → addr + n ≤ (s.bitlen b).toNat →
    (∀ v, (s.memWrite b addr n v).isSome) ∧ (n ≤ 64 → (s.memRead b addr n).isSome) ∧
      (∀ tmp : List Word, tmp.length = (n + 63) / 64 → (s.extractBits b addr n 0 tmp).isSome) ∧
      (∀ bo, n = (s.bitlen bo).toNat → (State.copyBits b addr bo n 0 s).isSome)

/-- R21: while an instance lives, only FREE, a GETF into its bank and reset end it; until then its length and word count
stay. -/
def Obligations.SizeIsImmutable : Prop :=
  ∀ (s t : State) (b : Nat), s.Inv → step s = .next t → s.valid b = true →
    (t.valid b = true ∧ t.bitlen b = s.bitlen b ∧ t.wcount b = s.wcount b) ∨
      (∃ rest, s.inputs = .reset :: rest) ∨
      ∃ c rest, s.inputs = .command c :: rest ∧
        ((∃ bt, decode s.cfg c = .ok (.free bt) ∧ bt.toNat = b) ∨
          ∃ bt bo x y, decode s.cfg c = .ok (.getf bt bo x y) ∧ bo.toNat = b)

/-! ## The bit primitives and `MemRead`, `MemWrite` -/

/-- R71, R72: `getBit` and `setBit` fail exactly outside the instance; inside, `getBit` is the bit and `setBit` changes
that bit of that bank and nothing else. -/
def Obligations.BitPrimitives : Prop :=
  ∀ (s : State) (b index : Nat), s.Inv → b < s.cfg.nbanks →
    ((s.bitlen b).toNat ≤ index → s.getBit b index = none ∧ ∀ v, s.setBit b index v = none) ∧
      (index < (s.bitlen b).toNat →
        s.getBit b index = some ((s.word b (index / 64)).getLsbD (index % 64)) ∧
          ∀ v, ∃ t, s.setBit b index v = some t ∧ t.pending = s.pending ∧ OnlyBank b s t ∧ SameDescriptor b s t ∧
            ∀ j, t.bit b j = if j = index then v else s.bit b j)

/-- R36: bit `i` of `MemRead` is `getBit(b, addr + i)` for `i < n`; zero-extended, the rest is 0, and it is the result of
GETFI. -/
def Obligations.MemReadIsTheFieldBits : Prop :=
  ∀ (s : State) (bt : BankIx) (a n : Word), n.toNat ≤ 64 → a.toNat + n.toNat ≤ (s.bitlen bt.toNat).toNat →
    ∃ r, s.memRead bt.toNat a.toNat n.toNat = some r ∧
      (∀ i, i < n.toNat → s.getBit bt.toNat (a.toNat + i) = some (r.getLsbD i)) ∧
      (∀ i, n.toNat ≤ i → r.getLsbD i = false) ∧
      (bt.toNat < s.cfg.nbanks → s.valid bt.toNat = true → Answers (.getfi bt a n) s ⟨.ok, r, []⟩)

/-- R37: bit `i` of the field takes bit `i` of the value, 0 from bit 64 on, and nothing else changes. -/
def Obligations.MemWriteWritesTheField : Prop :=
  ∀ (s : State) (b addr n : Nat) (v : Word), s.Inv → b < s.cfg.nbanks → addr + n ≤ (s.bitlen b).toNat →
    ∃ t, s.memWrite b addr n v = some t ∧ t.pending = s.pending ∧ OnlyBank b s t ∧ SameDescriptor b s t ∧
      (∀ i, i < n → t.bit b (addr + i) = if i < 64 then v.getLsbD i else false) ∧
      ∀ j, ¬ (addr ≤ j ∧ j < addr + n) → t.bit b j = s.bit b j

/-- The word-level form of `MemRead`, "equal to rule R36 bit for bit" (R38, the spec's own inference): also where
the field crosses into the next word, which is then a word of the instance. -/
def Obligations.WordLevelMemReadIsMemRead : Prop :=
  ∀ (s : State) (b addr n : Nat), 1 ≤ n → n ≤ 64 → addr + n ≤ (s.bitlen b).toNat →
    s.memRead b addr n = some (s.memReadWords b addr n) ∧
      (s.Inv → b < s.cfg.nbanks → 64 < addr % 64 + n → addr / 64 + 1 < s.wcount b)

/-- The word-level form of `MemWrite`, "equal to rule R37 bit for bit" (R39, the spec's own inference); above 64
bits it is the 64-bit write followed by the clearing of the rest. -/
def Obligations.WordLevelMemWriteIsMemWrite : Prop :=
  ∀ (s : State) (b addr n : Nat) (v : Word), s.Inv → b < s.cfg.nbanks → addr + n ≤ (s.bitlen b).toNat →
    (1 ≤ n → n ≤ 64 → s.memWrite b addr n v = some (s.memWriteWords b addr n v)) ∧
      (64 < n → s.memWrite b addr n v = (s.memWriteWords b addr 64 v).memWrite b (addr + 64) (n - 64) 0)

/-! ## The commands -/

/-- A command term that names an absent bank is answered `ILLEGAL_COMMAND` (R55 step 4, R58): the check holds in `exec`
too (log 9). -/
def Obligations.AbsentBankIsIllegal : Prop :=
  ∀ (s : State) (i : Instr), ¬ i.WellFormed s.cfg → Answers i s ⟨.illegalCommand, 0, []⟩

/-- R67, with its encoding: LDW writes one word of a free bank; `BANK_IN_USE` on a bank that holds an instance,
`LIMIT_ERROR(WMAX)` outside the word array. -/
def Obligations.LdwWritesOneWord : Prop :=
  ∀ (s : State) (bt : BankIx) (a v : Word), s.Inv → bt.toNat < s.cfg.nbanks →
    (∀ x : Word, decode s.cfg ⟨0x00000001#32 ||| (bt.setWidth 32 <<< 8), a, x, v⟩ = .ok (.ldw bt a v)) ∧
    (s.valid bt.toNat = true → Answers (.ldw bt a v) s ⟨.bankInUse, 0, []⟩) ∧
    (s.valid bt.toNat = false → s.cfg.wmax ≤ a.toNat →
      Answers (.ldw bt a v) s ⟨.limitError, BitVec.ofNat 64 s.cfg.wmax, []⟩) ∧
    (s.valid bt.toNat = false → a.toNat < s.cfg.wmax →
      ∃ t, exec (.ldw bt a v) s = .next t ∧ Succeeded t 0 [] ∧ OnlyBank bt.toNat s t ∧ SameDescriptor bt.toNat s t ∧
        t.word bt.toNat a.toNat = v ∧ ∀ k, k ≠ a.toNat → t.word bt.toNat k = s.word bt.toNat k)

/-- R68, with its encoding: NEW constructs an instance over the words the bank holds; `BANK_IN_USE`, `LIMIT_ERROR(WMAX)`,
`CAPACITY_ERROR(B * 64)`, in that order. -/
def Obligations.NewConstructsOverTheWords : Prop :=
  ∀ (s : State) (bt : BankIx) (a b : Word), s.Inv → bt.toNat < s.cfg.nbanks →
    (∀ x : Word, decode s.cfg ⟨0x00000002#32 ||| (bt.setWidth 32 <<< 8), a, b, x⟩ = .ok (.new bt a b)) ∧
    (s.valid bt.toNat = true → Answers (.new bt a b) s ⟨.bankInUse, 0, []⟩) ∧
    (s.valid bt.toNat = false → s.cfg.wmax < b.toNat →
      Answers (.new bt a b) s ⟨.limitError, BitVec.ofNat 64 s.cfg.wmax, []⟩) ∧
    (s.valid bt.toNat = false → b.toNat ≤ s.cfg.wmax → b.toNat * 64 < a.toNat →
      ∃ d : Word, d.toNat = b.toNat * 64 ∧ Answers (.new bt a b) s ⟨.capacityError, d, []⟩) ∧
    (s.valid bt.toNat = false → b.toNat ≤ s.cfg.wmax → a.toNat ≤ b.toNat * 64 →
      ∃ t, exec (.new bt a b) s = .next t ∧ Succeeded t 0 [] ∧ OnlyBank bt.toNat s t ∧ t.valid bt.toNat = true ∧
        t.bitlen bt.toNat = a ∧ t.wcount bt.toNat = b.toNat ∧ ∀ k, t.word bt.toNat k = s.word bt.toNat k)

/-- R69, with its encoding: FREE succeeds on every bank, clears its descriptor and keeps its words; on a free bank it
changes nothing. -/
def Obligations.FreeReleasesTheBank : Prop :=
  ∀ (s : State) (bt : BankIx), s.Inv → bt.toNat < s.cfg.nbanks →
    (∀ x y z : Word, decode s.cfg ⟨0x00000003#32 ||| (bt.setWidth 32 <<< 8), x, y, z⟩ = .ok (.free bt)) ∧
    (∃ t, exec (.free bt) s = .next t ∧ Succeeded t 0 [] ∧ OnlyBank bt.toNat s t ∧ t.valid bt.toNat = false ∧
      t.bitlen bt.toNat = 0 ∧ t.wcount bt.toNat = 0 ∧ ∀ k, t.word bt.toNat k = s.word bt.toNat k) ∧
    (s.valid bt.toNat = false → Answers (.free bt) s ⟨.ok, 0, []⟩)

/-- R70, with its encoding: LEN returns the logical length of a valid bank and has no side effect; `NO_INSTANCE` on a
free bank. -/
def Obligations.LenReturnsBitLength : Prop :=
  ∀ (s : State) (bt : BankIx), bt.toNat < s.cfg.nbanks →
    (∀ x y z : Word, decode s.cfg ⟨0x00000004#32 ||| (bt.setWidth 32 <<< 8), x, y, z⟩ = .ok (.len bt)) ∧
    (s.valid bt.toNat = false → Answers (.len bt) s ⟨.noInstance, 0, []⟩) ∧
    (s.valid bt.toNat = true → Answers (.len bt) s ⟨.ok, s.bitlen bt.toNat, []⟩)

/-- R74, with its encoding: SETF copies the logical bits of `bo` into `[offset, offset + L)` of `bt`, and nothing else
changes. -/
def Obligations.SetfCopiesTheField : Prop :=
  ∀ (s : State) (bt bo : BankIx) (a : Word), s.Inv → bt.toNat < s.cfg.nbanks → bo.toNat < s.cfg.nbanks →
    (∀ x y : Word, decode s.cfg ⟨0x00000005#32 ||| (bt.setWidth 32 <<< 8) ||| (bo.setWidth 32 <<< 12), a, x, y⟩ =
      .ok (.setf bt bo a)) ∧
    (s.valid bt.toNat = false ∨ s.valid bo.toNat = false → Answers (.setf bt bo a) s ⟨.noInstance, 0, []⟩) ∧
    (s.valid bt.toNat = true → s.valid bo.toNat = true →
      (s.bitlen bt.toNat).toNat < a.toNat + (s.bitlen bo.toNat).toNat →
      Answers (.setf bt bo a) s ⟨.rangeError, s.bitlen bt.toNat, []⟩) ∧
    (s.valid bt.toNat = true → s.valid bo.toNat = true →
      a.toNat + (s.bitlen bo.toNat).toNat ≤ (s.bitlen bt.toNat).toNat →
      ∃ t, exec (.setf bt bo a) s = .next t ∧ Succeeded t 0 [] ∧ OnlyBank bt.toNat s t ∧ SameDescriptor bt.toNat s t ∧
        (∀ i, i < (s.bitlen bo.toNat).toNat → t.bit bt.toNat (a.toNat + i) = s.bit bo.toNat i) ∧
        ∀ j, ¬ (a.toNat ≤ j ∧ j < a.toNat + (s.bitlen bo.toNat).toNat) → t.bit bt.toNat j = s.bit bt.toNat j)

/-- R75, which the spec infers from R74 and R11: SETF of a bank into itself is `OK` with no change at offset 0 and
`RANGE_ERROR` at every other offset. -/
def Obligations.SetfOfABankIntoItself : Prop :=
  ∀ (s : State) (bt : BankIx) (a : Word), s.Inv → bt.toNat < s.cfg.nbanks → s.valid bt.toNat = true →
    (a = 0 → Answers (.setf bt bt a) s ⟨.ok, 0, []⟩) ∧
    (a ≠ 0 → Answers (.setf bt bt a) s ⟨.rangeError, s.bitlen bt.toNat, []⟩)

/-- R76, with its encoding: SETFI writes the low bits of `V` into the field, zeros above bit 63 of `V`, and nothing
else. -/
def Obligations.SetfiWritesTheValue : Prop :=
  ∀ (s : State) (bt : BankIx) (a b v : Word), s.Inv → bt.toNat < s.cfg.nbanks →
    (decode s.cfg ⟨0x00000006#32 ||| (bt.setWidth 32 <<< 8), a, b, v⟩ = .ok (.setfi bt a b v)) ∧
    (s.valid bt.toNat = false → Answers (.setfi bt a b v) s ⟨.noInstance, 0, []⟩) ∧
    (s.valid bt.toNat = true → (s.bitlen bt.toNat).toNat < a.toNat + b.toNat →
      Answers (.setfi bt a b v) s ⟨.rangeError, s.bitlen bt.toNat, []⟩) ∧
    (s.valid bt.toNat = true → a.toNat + b.toNat ≤ (s.bitlen bt.toNat).toNat →
      ∃ t, exec (.setfi bt a b v) s = .next t ∧ Succeeded t 0 [] ∧ OnlyBank bt.toNat s t ∧
        SameDescriptor bt.toNat s t ∧
        (∃ u, s.memWrite bt.toNat a.toNat b.toNat v = some u ∧ t = { u with pending := t.pending }) ∧
        (∀ i, i < b.toNat → t.bit bt.toNat (a.toNat + i) = if i < 64 then v.getLsbD i else false) ∧
        ∀ j, ¬ (a.toNat ≤ j ∧ j < a.toNat + b.toNat) → t.bit bt.toNat j = s.bit bt.toNat j)

/-- R77, the round-trip law, which the spec infers from R76 and R80: after a SETFI that responds `OK` with `n <= 64`,
GETFI of the same range returns `v & mask(n)`, and `v` unmodified for `n = 64`. -/
def Obligations.SetfiThenGetfiRoundTrip : Prop :=
  ∀ (s t : State) (bt : BankIx) (a n v : Word), s.Inv → n.toNat ≤ 64 → exec (.setfi bt a n v) s = .next t →
    Succeeded t 0 [] →
    Answers (.getfi bt a n) t
      ⟨.ok, if n.toNat = 64 then v else v &&& (BitVec.ofNat 64 (2 ^ n.toNat) - 1), []⟩

/-- R78, with its encoding, and R82: GETF makes in `bo` a new instance of length `B` over `ceil(B / 64)` words, whose
bit `i` is source bit `offset + i` for every `i % 64`, padding 0; every other word of `bo`, and every other bank, is as
it was. It holds for `bo = bt` too: the bits are those before the command (R79). -/
def Obligations.GetfExtractsTheField : Prop :=
  ∀ (s : State) (bt bo : BankIx) (a b : Word), s.Inv → bt.toNat < s.cfg.nbanks → bo.toNat < s.cfg.nbanks →
    (∀ x : Word, decode s.cfg ⟨0x00000007#32 ||| (bt.setWidth 32 <<< 8) ||| (bo.setWidth 32 <<< 12), a, b, x⟩ =
      .ok (.getf bt bo a b)) ∧
    (s.valid bt.toNat = false → Answers (.getf bt bo a b) s ⟨.noInstance, 0, []⟩) ∧
    (s.valid bt.toNat = true → (s.bitlen bt.toNat).toNat < a.toNat + b.toNat →
      Answers (.getf bt bo a b) s ⟨.rangeError, s.bitlen bt.toNat, []⟩) ∧
    (s.valid bt.toNat = true → a.toNat + b.toNat ≤ (s.bitlen bt.toNat).toNat →
      ∃ t, exec (.getf bt bo a b) s = .next t ∧ Succeeded t 0 [] ∧ OnlyBank bo.toNat s t ∧ t.valid bo.toNat = true ∧
        t.bitlen bo.toNat = b ∧ t.wcount bo.toNat = (b.toNat + 63) / 64 ∧
        (∀ i, i < 64 * ((b.toNat + 63) / 64) →
          t.bit bo.toNat i = (decide (i < b.toNat) && s.bit bt.toNat (a.toNat + i))) ∧
        ∀ k, (b.toNat + 63) / 64 ≤ k → t.word bo.toNat k = s.word bo.toNat k)

/-- R80, with its encoding: GETFI returns the field zero-extended; `RANGE_ERROR` above 64 bits or outside the instance;
no state changes. -/
def Obligations.GetfiReturnsTheField : Prop :=
  ∀ (s : State) (bt : BankIx) (a b : Word), s.Inv → bt.toNat < s.cfg.nbanks →
    (∀ x : Word, decode s.cfg ⟨0x00000008#32 ||| (bt.setWidth 32 <<< 8), a, b, x⟩ = .ok (.getfi bt a b)) ∧
    (s.valid bt.toNat = false → Answers (.getfi bt a b) s ⟨.noInstance, 0, []⟩) ∧
    (s.valid bt.toNat = true → 64 < b.toNat ∨ (s.bitlen bt.toNat).toNat < a.toNat + b.toNat →
      Answers (.getfi bt a b) s ⟨.rangeError, s.bitlen bt.toNat, []⟩) ∧
    (s.valid bt.toNat = true → b.toNat ≤ 64 → a.toNat + b.toNat ≤ (s.bitlen bt.toNat).toNat →
      ∃ r : Word, Answers (.getfi bt a b) s ⟨.ok, r, []⟩ ∧ s.memRead bt.toNat a.toNat b.toNat = some r ∧
        ∀ i, r.getLsbD i = (decide (i < b.toNat) && s.bit bt.toNat (a.toNat + i)))

/-- R81, the extraction consistency law, in its general form, which the spec infers from R78 and R80: after `GETF kO,
kT, a, n` with another receiving bank, `GETFI kO, j, m` and `GETFI kT, a + j, m` respond `OK` with the same data for all
`m <= 64`, `j + m <= n`. -/
def Obligations.ExtractionConsistency : Prop :=
  ∀ (s t : State) (bt bo : BankIx) (a n j m : Word), s.Inv → bo ≠ bt → exec (.getf bt bo a n) s = .next t →
    Succeeded t 0 [] → m.toNat ≤ 64 → j.toNat + m.toNat ≤ n.toNat →
    ∃ r, Answers (.getfi bo j m) t ⟨.ok, r, []⟩ ∧ Answers (.getfi bt (a + j) m) t ⟨.ok, r, []⟩

/-- R83, with its encoding: HEX renders every backing word, highest index first, most-significant digit first; nothing
changes. -/
def Obligations.HexRendersEveryBackingWord : Prop :=
  ∀ (s : State) (bt : BankIx), bt.toNat < s.cfg.nbanks →
    (∀ x y z : Word, decode s.cfg ⟨0x00000009#32 ||| (bt.setWidth 32 <<< 8), x, y, z⟩ = .ok (.hex bt)) ∧
    (s.valid bt.toNat = false → Answers (.hex bt) s ⟨.noInstance, 0, []⟩) ∧
    (s.valid bt.toNat = true →
      ∃ bytes, Answers (.hex bt) s ⟨.ok, 0, bytes⟩ ∧ bytes.length = 16 * s.wcount bt.toNat ∧
        ∀ k d, k < s.wcount bt.toNat → d < 16 →
          bytes[16 * (s.wcount bt.toNat - 1 - k) + (15 - d)]? =
            some (hexChar ((s.word bt.toNat k).extractLsb' (4 * d) 4)))

/-- `hexchar(n)` (R84, codes "from general knowledge, not in source"; PRESUMED, log 12) is `0x30 + n` up to 9 and `0x61
+ (n - 10)` above. -/
def Obligations.HexCharCodes : Prop :=
  ∀ n : BitVec 4, (n.toNat ≤ 9 → (hexChar n).toNat = 0x30 + n.toNat) ∧
    (10 ≤ n.toNat → (hexChar n).toNat = 0x61 + (n.toNat - 10))

/-- R85, which the spec infers from R83; the codes of the characters are PRESUMED, log 12. The string has `16 * wcount`
characters, all lowercase hexadecimal digits; word `k` is the value of its own sixteen; and a second HEX on the bank,
whatever else happened, gives the same string. -/
def Obligations.HexStringLaws : Prop :=
  ∀ (s t : State) (bt : BankIx) (bytes : List Byte), Answers (.hex bt) s ⟨.ok, 0, bytes⟩ →
    bytes.length = 16 * s.wcount bt.toNat ∧
      (∀ c ∈ bytes, (0x30 ≤ c.toNat ∧ c.toNat ≤ 0x39) ∨ (0x61 ≤ c.toNat ∧ c.toNat ≤ 0x66)) ∧
      (∀ k, k < s.wcount bt.toNat →
        hexValue ((bytes.drop (16 * (s.wcount bt.toNat - 1 - k))).take 16) = (s.word bt.toNat k).toNat) ∧
      (t.cfg = s.cfg → t.bank bt.toNat = s.bank bt.toNat → Answers (.hex bt) t ⟨.ok, 0, bytes⟩)

/-! ## Statuses -/

/-- The numbers of the status codes (R86): 0 to 6, and 7 to 15 are never produced. -/
def Obligations.StatusNumbers : Prop :=
  Status.ok.code = 0 ∧ Status.capacityError.code = 1 ∧ Status.rangeError.code = 2 ∧ Status.illegalCommand.code = 3 ∧
    Status.noInstance.code = 4 ∧ Status.bankInUse.code = 5 ∧ Status.limitError.code = 6 ∧ ∀ st : Status, st.code.toNat ≤ 6

/-- R87, R96: `CAPACITY_ERROR` is answered by NEW alone, exactly when the bank is free, the count is within the array and
`B * 64 < A`. -/
def Obligations.CapacityErrorExactly : Prop :=
  ∀ (s : State) (i : Instr), i.WellFormed s.cfg →
    (AnswersStatus i s .capacityError ↔
      ∃ bt a b, i = .new bt a b ∧ s.valid bt.toNat = false ∧ b.toNat ≤ s.cfg.wmax ∧ b.toNat * 64 < a.toNat)

/-- R88, R47, R96: `RANGE_ERROR` is answered exactly when the instances the command needs exist and its range, a sum of
naturals, is not inside `[0, bitLength)`, or a GETFI length is above 64. -/
def Obligations.RangeErrorExactly : Prop :=
  ∀ (s : State) (i : Instr), s.Inv → i.WellFormed s.cfg →
    (AnswersStatus i s .rangeError ↔
      (∃ bt bo a, i = .setf bt bo a ∧ s.valid bt.toNat = true ∧ s.valid bo.toNat = true ∧
        (s.bitlen bt.toNat).toNat < a.toNat + (s.bitlen bo.toNat).toNat) ∨
      (∃ bt a b v, i = .setfi bt a b v ∧ s.valid bt.toNat = true ∧
        (s.bitlen bt.toNat).toNat < a.toNat + b.toNat) ∨
      (∃ bt bo a b, i = .getf bt bo a b ∧ s.valid bt.toNat = true ∧
        (s.bitlen bt.toNat).toNat < a.toNat + b.toNat) ∨
      ∃ bt a b, i = .getfi bt a b ∧ s.valid bt.toNat = true ∧
        (64 < b.toNat ∨ (s.bitlen bt.toNat).toNat < a.toNat + b.toNat))

/-- R90: `NO_INSTANCE` is answered exactly by LEN, SETFI, GETF, GETFI and HEX on a free bank and by SETF when either bank
is free; GETF requires nothing of its receiving bank. `data` is 0. -/
def Obligations.NoInstanceExactly : Prop :=
  ∀ (s : State) (i : Instr), i.WellFormed s.cfg →
    (AnswersStatus i s .noInstance ↔
      match i with
      | .ldw _ _ _ => False
      | .new _ _ _ => False
      | .free _ => False
      | .len bt => s.valid bt.toNat = false
      | .setf bt bo _ => s.valid bt.toNat = false ∨ s.valid bo.toNat = false
      | .setfi bt _ _ _ => s.valid bt.toNat = false
      | .getf bt _ _ _ => s.valid bt.toNat = false
      | .getfi bt _ _ => s.valid bt.toNat = false
      | .hex bt => s.valid bt.toNat = false) ∧
    ∀ t p, exec i s = .next t → t.pending = some p → p.response.status = .noInstance → p.response.data = 0

/-- R91, R92: `BANK_IN_USE` is answered exactly by LDW and NEW on a valid bank, `LIMIT_ERROR` exactly by LDW with an index
not below `WMAX` and NEW with a count above it, on a free bank, with `data` = `WMAX`. -/
def Obligations.BankInUseAndLimitErrorExactly : Prop :=
  ∀ (s : State) (i : Instr), s.Inv → i.WellFormed s.cfg →
    (AnswersStatus i s .bankInUse ↔
      (∃ bt a v, i = .ldw bt a v ∧ s.valid bt.toNat = true) ∨ ∃ bt a b, i = .new bt a b ∧ s.valid bt.toNat = true) ∧
    (AnswersStatus i s .limitError ↔
      (∃ bt a v, i = .ldw bt a v ∧ s.valid bt.toNat = false ∧ s.cfg.wmax ≤ a.toNat) ∨
        ∃ bt a b, i = .new bt a b ∧ s.valid bt.toNat = false ∧ s.cfg.wmax < b.toNat) ∧
    (∀ t p, exec i s = .next t → t.pending = some p →
      (p.response.status = .bankInUse → p.response.data = 0) ∧
        (p.response.status = .limitError → p.response.data.toNat = s.cfg.wmax))

/-- R95, R94: a command, legal or not, that responds with any status but `OK` changes no state at all, and its response
has no bytes. -/
def Obligations.ErrorsLeaveNoTrace : Prop :=
  ∀ (s t : State) (c : Command) (rest : List HostInput) (p : Pending), s.pending = none →
    s.inputs = .command c :: rest → step s = .next t → t.pending = some p → p.response.status ≠ .ok →
    t = { s with inputs := rest, pending := some p } ∧ p.response.bytes = [] ∧ p.bytesTaken = 0

/-- R65: on success `data` is `bitlen[bt]` for LEN, the field for GETFI, and 0 for every other command; only HEX gives
bytes (R52). -/
def Obligations.DataAndBytesOnSuccess : Prop :=
  ∀ (s t : State) (i : Instr) (p : Pending), exec i s = .next t → t.pending = some p → p.response.status = .ok →
    (∀ bt, i = .len bt → p.response.data = s.bitlen bt.toNat) ∧
      (∀ bt a b, i = .getfi bt a b → s.memRead bt.toNat a.toNat b.toNat = some p.response.data) ∧
      (i.opcode ≠ .len → i.opcode ≠ .getfi → p.response.data = 0) ∧ (i.opcode ≠ .hex → p.response.bytes = [])

/-! ## Frames, isolation -/

/-- R48, the frame rule, which the spec infers from the commands' rules, for every command and every outcome: banks a
command does not write are as they were, and of the bank it writes everything but what R48 names is as it was. -/
def Obligations.FrameOfEveryCommand : Prop :=
  ∀ (s t : State) (i : Instr), s.Inv → exec i s = .next t →
    t.cfg = s.cfg ∧ t.inputs = s.inputs ∧ t.responses = s.responses ∧ t.resets = s.resets ∧
      t.banks.length = s.banks.length ∧ (∀ b, writtenBank i ≠ some b → t.bank b = s.bank b) ∧ FrameOf s t i

/-- R14: instances in two banks never share storage. What a command answers, and what it leaves in the banks it names,
does not depend on any bank it does not name. -/
def Obligations.BanksAreIndependent : Prop :=
  ∀ (s s' t t' : State) (i : Instr), s.Inv → s'.Inv → s.cfg = s'.cfg →
    (∀ b, namesBank i b → s.bank b = s'.bank b) → exec i s = .next t → exec i s' = .next t' →
    t.pending = t'.pending ∧ ∀ b, namesBank i b → t.bank b = t'.bank b

/-- R23, R112 (e), (f): padding and residual words are read by no command but HEX, and taken in by none but NEW.
On two states that show the same instances every other command responds alike and leaves states that show the same
instances. -/
def Obligations.PaddingIsNeverRead : Prop :=
  ∀ (s s' t t' : State) (i : Instr), s.Inv → s'.Inv → SameInstances s s' → i.opcode ≠ .hex → i.opcode ≠ .new →
    exec i s = .next t → exec i s' = .next t' → t.pending = t'.pending ∧ SameInstances t t'

/-! ## Sequences the rules state -/

/-- R106, which the spec infers from R69: FREE of every bank leaves every bank free from any state, and every word as it
was. -/
def Obligations.FreeEveryBankReachesAllFree : Prop :=
  ∀ s : State, s.Inv →
    ∃ t, execAll ((List.range s.cfg.nbanks).map fun b => .free (BitVec.ofNat 4 b)) s = some t ∧
      ∀ b, b < s.cfg.nbanks →
        t.valid b = false ∧ t.bitlen b = 0 ∧ t.wcount b = 0 ∧ ∀ k, t.word b k = s.word b k

/-- R62, R105: the expansion of CREATE with at most `WMAX` words. With room for the length it leaves the instance with
exactly those words; without, its NEW answers `CAPACITY_ERROR` and the bank is free. -/
def Obligations.CreateBuildsTheInstance : Prop :=
  ∀ (s : State) (bt : BankIx) (bitLength : Word) (ws : List Word), s.Inv → bt.toNat < s.cfg.nbanks →
    ws.length ≤ s.cfg.wmax →
    (create bt bitLength ws).length = ws.length + 2 ∧
    ∃ t, execAll (create bt bitLength ws) s = some t ∧ OnlyBank bt.toNat s t ∧
      (∀ k, t.word bt.toNat k = if k < ws.length then ws.getD k 0 else s.word bt.toNat k) ∧
      (bitLength.toNat ≤ ws.length * 64 →
        Succeeded t 0 [] ∧ t.valid bt.toNat = true ∧ t.bitlen bt.toNat = bitLength ∧ t.wcount bt.toNat = ws.length) ∧
      (ws.length * 64 < bitLength.toNat →
        (∃ d, t.pending = some ⟨⟨.capacityError, d, []⟩, 0⟩ ∧ d.toNat = ws.length * 64) ∧ t.valid bt.toNat = false)
end

