-- ==== Sys2Proof/Laws/Asm.lean ====
section
/-! SUPPORT. Writing and reading assembler text (spec/30_encoding.md R61): each piece written is read back. -/

namespace Sys2Proof.Machine.Asm

/-- The text of an operand: no space, comma or semicolon. -/
def Plain (cs : List Char) : Prop := ∀ c ∈ cs, c ≠ ' ' ∧ c ≠ ',' ∧ c ≠ ';'

theorem digit_toNat {n : Nat} (h : n < 10) : (digitChar n).toNat = 48 + n := by
  interval_cases n <;> rfl

theorem decimal_mem : ∀ (f n : Nat) (c : Char), c ∈ decimal f n → ∃ d, d < 10 ∧ c = digitChar d
  | 0, n, c, h => ⟨n % 10, Nat.mod_lt _ (by omega), by simpa [decimal] using h⟩
  | f + 1, n, c, h => by
    unfold decimal at h
    split at h
    · exact ⟨n, by omega, by simpa using h⟩
    · rcases List.mem_append.1 h with h | h
      · exact decimal_mem f _ c h
      · exact ⟨n % 10, Nat.mod_lt _ (by omega), by simpa using h⟩

theorem decimal_ne {f n : Nat} {c d : Char} (h : c ∈ decimal f n) (hd : d.toNat < 48 ∨ 57 < d.toNat) : c ≠ d := by
  rintro rfl
  obtain ⟨x, hx, rfl⟩ := decimal_mem f n c h
  rw [digit_toNat hx] at hd; omega

theorem readDigits_digit {n : Nat} (h : n < 10) (cs : List Char) (acc : Nat) (b : Bool) :
    readDigits 10 (digitChar n :: cs) acc b = readDigits 10 cs (acc * 10 + n) true := by
  have h1 : digitChar n ≠ '_' := by interval_cases n <;> decide
  have h2 : digitValue 10 (digitChar n) = some n := by interval_cases n <;> decide
  simp [readDigits, h1, h2]

/-- The digits written are read back. -/
theorem readDigits_decimal : ∀ (f n : Nat), n < 10 ^ (f + 1) → ∀ (cs : List Char) (acc : Nat) (b : Bool),
    readDigits 10 (decimal f n ++ cs) acc b =
      readDigits 10 cs (acc * 10 ^ (decimal f n).length + n) true
  | 0, n, h, cs, acc, b => by
    have : n % 10 = n := Nat.mod_eq_of_lt (by simpa using h)
    simp only [decimal, this, List.singleton_append, List.length_singleton]
    rw [readDigits_digit (by simpa using h)]; simp
  | f + 1, n, h, cs, acc, b => by
    unfold decimal
    split
    · rw [List.singleton_append, readDigits_digit (by omega)]; simp
    · rw [List.append_assoc, readDigits_decimal f (n / 10) (by rw [Nat.pow_succ] at h; omega), List.singleton_append,
        readDigits_digit (Nat.mod_lt _ (by omega))]
      congr 1
      rw [List.length_append, List.length_singleton, Nat.pow_succ, ← Nat.mul_assoc]; omega

theorem readDigits_decimal_all {f n : Nat} (h : n < 10 ^ (f + 1)) : readDigits 10 (decimal f n) 0 false = some n := by
  have := readDigits_decimal f n h [] 0 false
  simpa [readDigits] using this

/-- A 64-bit operand written in decimal is read back. -/
theorem readWord_showWord (w : Word) : readWord (showWord w) = some w := by
  have hw := w.isLt
  have : readDigits 10 (showWord w) 0 false = some w.toNat := readDigits_decimal_all (by omega)
  unfold readWord
  split
  · rename_i ds e
    have hx : 'x' ∈ decimal 19 w.toNat := by
      change _ ∈ showWord w
      rw [e]
      simp
    exact absurd rfl (decimal_ne hx (by decide))
  · simp only [this, if_pos hw]; simp

theorem readBank_showBank (b : BankIx) : readBank (showBank b) = some b := by
  revert b; decide

theorem plain_showWord (w : Word) : Plain (showWord w) :=
  fun _ h => ⟨decimal_ne h (by decide), decimal_ne h (by decide), decimal_ne h (by decide)⟩

theorem plain_showBank (b : BankIx) : Plain (showBank b) := by
  intro c h
  rcases List.mem_cons.1 h with rfl | h
  · decide
  · exact ⟨decimal_ne h (by decide), decimal_ne h (by decide), decimal_ne h (by decide)⟩

theorem skipSpaces_plain {cs : List Char} (h : Plain cs) : skipSpaces cs = cs := by
  cases cs with
  | nil => rfl
  | cons c cs => simp [skipSpaces, (h c (by simp)).1]

theorem trim_plain {cs : List Char} (h : Plain cs) : trim cs = cs := by
  unfold trim
  rw [skipSpaces_plain h, skipSpaces_plain (fun c hc => h c (by simpa using hc)), List.reverse_reverse]

theorem trim_space {cs : List Char} (h : Plain cs) : trim (' ' :: cs) = cs := by
  have : trim (' ' :: cs) = trim cs := by simp [trim, skipSpaces]
  rw [this, trim_plain h]

theorem splitCommas_ne_nil (cs : List Char) : splitCommas cs ≠ [] := by
  induction cs with
  | nil => simp [splitCommas]
  | cons c cs ih =>
    unfold splitCommas
    split
    · simp
    · split <;> simp

theorem splitCommas_cons {p : List Char} (h : Plain p) (cs : List Char) :
    splitCommas (p ++ ',' :: cs) = p :: splitCommas cs := by
  induction p with
  | nil =>
    rw [List.nil_append, splitCommas]
    split
    · exact absurd ‹_› (splitCommas_ne_nil _)
    · simp_all
  | cons c p ih =>
    have ih := ih fun x hx => h x (by simp [hx])
    rw [List.cons_append, splitCommas, ih]
    simp [(h c (by simp)).2.1]

theorem splitCommas_one {p : List Char} (h : Plain p) : splitCommas p = [p] := by
  induction p with
  | nil => rfl
  | cons c p ih =>
    rw [splitCommas, ih fun x hx => h x (by simp [hx])]
    simp [(h c (by simp)).2.1]

/-- The operands written by `showLine` are read back. -/
theorem operands_join : ∀ (xs : List (List Char)) (x : List Char), (∀ y ∈ x :: xs, Plain y) →
    operands (' ' :: (x ++ xs.flatMap fun y => ',' :: ' ' :: y)) = x :: xs
  | [], x, h => by
    have : Plain x := h x (by simp)
    unfold operands
    rw [List.flatMap_nil, List.append_nil, splitCommas, splitCommas_one this]
    simp [trim_space this]
  | y :: ys, x, h => by
    have hx : Plain x := h x (by simp)
    have := operands_join ys y fun z hz => h z (by simp_all)
    unfold operands at this ⊢
    rw [List.flatMap_cons, List.cons_append, splitCommas, splitCommas_cons hx]
    simp only [List.cons_append] at this ⊢
    simp [trim_space hx, this]

theorem takeWhile_append_all {p : Char → Bool} :
    ∀ {m cs : List Char}, (∀ c ∈ m, p c = true) → (m ++ cs).takeWhile p = m ++ cs.takeWhile p
  | [], _, _ => rfl
  | c :: m, cs, h => by
    rw [List.cons_append, List.takeWhile_cons, if_pos (h c (by simp)), takeWhile_append_all fun x hx => h x (by simp [hx])]
    rfl

theorem dropWhile_append_all {p : Char → Bool} :
    ∀ {m cs : List Char}, (∀ c ∈ m, p c = true) → (m ++ cs).dropWhile p = cs.dropWhile p
  | [], _, _ => rfl
  | c :: m, cs, h => by
    rw [List.cons_append, List.dropWhile_cons, if_pos (h c (by simp)), dropWhile_append_all fun x hx => h x (by simp [hx])]

/-- A line written by `showLine` is read as its mnemonic and its operands. -/
theorem readLine_showLine {c : Char} {m x : List Char} {xs : List (List Char)} (hm : Plain (c :: m)) 
    (hc : c :: m ≠ ['C', 'R', 'E', 'A', 'T', 'E']) (h : ∀ y ∈ x :: xs, Plain y) :
    readLine (showLine (c :: m) (x :: xs)) = (readInstr (c :: m) (x :: xs)).map fun i => [i] := by
  have e : (showLine (c :: m) (x :: xs)).takeWhile (· != ';') = showLine (c :: m) (x :: xs) := by
    rw [List.takeWhile_eq_self_iff]
    intro d hd
    simp only [showLine, List.mem_append, List.mem_cons, List.mem_flatMap] at hd
    rw [bne_iff_ne]
    rcases hd with hd | hd | hd | ⟨y, hy, hd | hd | hd⟩
    · exact (hm d (by simpa using hd)).2.2
    · subst hd; decide
    · exact (h x (by simp) d hd).2.2
    · subst hd; decide
    · subst hd; decide
    · exact (h y (by simp [hy]) d hd).2.2
  have e2 : skipSpaces (showLine (c :: m) (x :: xs)) = showLine (c :: m) (x :: xs) := by
    simp [showLine, skipSpaces, (hm c (by simp)).1]
  unfold readLine
  rw [e, e2]
  have hs : ∀ d ∈ c :: m, (d != ' ') = true := fun d hd => by rw [bne_iff_ne]; exact (hm d hd).1
  split
  · rename_i h'; simp [showLine] at h'
  · dsimp only
    rw [showLine, takeWhile_append_all hs, dropWhile_append_all hs]
    simp only [List.takeWhile_cons, List.dropWhile_cons]
    have hsp : (' ' != ' ') = false := by decide
    simp only [hsp, Bool.false_eq_true, if_false]
    rw [operands_join _ _ h, List.append_nil, if_neg hc]

end Sys2Proof.Machine.Asm
end

