-- ==== Sys2Proof/Laws/State.lean ====
section
/-! SUPPORT. What each update of the state does to each field and each observation. -/

namespace Sys2Proof.Machine

namespace State

variable (s : State) (b b' k : Nat) (bk : Bank) (ws : List Word) (r : Response)

/-! ## Fields of the updates -/

@[simp] theorem setBank_cfg : (s.setBank b bk).cfg = s.cfg := rfl
@[simp] theorem setBank_pending : (s.setBank b bk).pending = s.pending := rfl
@[simp] theorem setBank_inputs : (s.setBank b bk).inputs = s.inputs := rfl
@[simp] theorem setBank_responses : (s.setBank b bk).responses = s.responses := rfl
@[simp] theorem setBank_resets : (s.setBank b bk).resets = s.resets := rfl
@[simp] theorem setBank_banks : (s.setBank b bk).banks = s.banks.set b bk := rfl

@[simp] theorem setWords_cfg : (s.setWords b ws).cfg = s.cfg := rfl
@[simp] theorem setWords_pending : (s.setWords b ws).pending = s.pending := rfl
@[simp] theorem setWords_inputs : (s.setWords b ws).inputs = s.inputs := rfl
@[simp] theorem setWords_responses : (s.setWords b ws).responses = s.responses := rfl
@[simp] theorem setWords_resets : (s.setWords b ws).resets = s.resets := rfl

@[simp] theorem setDescriptor_cfg (v : Bool) (l : Word) (c : Nat) : (s.setDescriptor b v l c).cfg = s.cfg := rfl
@[simp] theorem setDescriptor_pending (v : Bool) (l : Word) (c : Nat) : (s.setDescriptor b v l c).pending = s.pending := rfl
@[simp] theorem setDescriptor_inputs (v : Bool) (l : Word) (c : Nat) : (s.setDescriptor b v l c).inputs = s.inputs := rfl
@[simp] theorem setDescriptor_responses (v : Bool) (l : Word) (c : Nat) :
    (s.setDescriptor b v l c).responses = s.responses := rfl
@[simp] theorem setDescriptor_resets (v : Bool) (l : Word) (c : Nat) : (s.setDescriptor b v l c).resets = s.resets := rfl

@[simp] theorem withResponse_cfg : (s.withResponse r).cfg = s.cfg := rfl
@[simp] theorem withResponse_banks : (s.withResponse r).banks = s.banks := rfl
@[simp] theorem withResponse_pending : (s.withResponse r).pending = some ⟨r, 0⟩ := rfl
@[simp] theorem withResponse_inputs : (s.withResponse r).inputs = s.inputs := rfl
@[simp] theorem withResponse_responses : (s.withResponse r).responses = s.responses := rfl
@[simp] theorem withResponse_resets : (s.withResponse r).resets = s.resets := rfl
@[simp] theorem withResponse_bank : (s.withResponse r).bank b = s.bank b := rfl
@[simp] theorem withResponse_valid : (s.withResponse r).valid b = s.valid b := rfl
@[simp] theorem withResponse_bitlen : (s.withResponse r).bitlen b = s.bitlen b := rfl
@[simp] theorem withResponse_wcount : (s.withResponse r).wcount b = s.wcount b := rfl
@[simp] theorem withResponse_word : (s.withResponse r).word b k = s.word b k := rfl
@[simp] theorem withResponse_bit : (s.withResponse r).bit b k = s.bit b k := rfl

@[simp] theorem consume_cfg : s.consume.cfg = s.cfg := rfl
@[simp] theorem consume_banks : s.consume.banks = s.banks := rfl
@[simp] theorem consume_pending : s.consume.pending = s.pending := rfl
@[simp] theorem consume_responses : s.consume.responses = s.responses := rfl
@[simp] theorem consume_resets : s.consume.resets = s.resets := rfl
@[simp] theorem consume_inputs : s.consume.inputs = s.inputs.tail := rfl

@[simp] theorem takeByte_cfg : s.takeByte.cfg = s.cfg := rfl
@[simp] theorem takeByte_banks : s.takeByte.banks = s.banks := rfl
@[simp] theorem takeByte_inputs : s.takeByte.inputs = s.inputs := rfl
@[simp] theorem takeByte_responses : s.takeByte.responses = s.responses := rfl
@[simp] theorem takeByte_resets : s.takeByte.resets = s.resets := rfl

@[simp] theorem takeResponse_cfg : s.takeResponse.cfg = s.cfg := by unfold takeResponse; split <;> rfl
@[simp] theorem takeResponse_banks : s.takeResponse.banks = s.banks := by unfold takeResponse; split <;> rfl
@[simp] theorem takeResponse_inputs : s.takeResponse.inputs = s.inputs := by unfold takeResponse; split <;> rfl
@[simp] theorem takeResponse_resets : s.takeResponse.resets = s.resets := by unfold takeResponse; split <;> rfl
@[simp] theorem takeResponse_pending : s.takeResponse.pending = none := by
  unfold takeResponse; split <;> simp_all

@[simp] theorem assertReset_cfg : s.assertReset.cfg = s.cfg := rfl
@[simp] theorem assertReset_pending : s.assertReset.pending = none := rfl
@[simp] theorem assertReset_inputs : s.assertReset.inputs = s.inputs := rfl
@[simp] theorem assertReset_responses : s.assertReset.responses = s.responses := rfl
@[simp] theorem assertReset_resets : s.assertReset.resets = s.resets + 1 := rfl
@[simp] theorem assertReset_banks :
    s.assertReset.banks = banksAfterReset s.cfg (Config.resetWord s.resets) := rfl

/-! ## Reading a bank after writing one -/

theorem bank_setBank : (s.setBank b bk).bank b' = if b' = b ∧ b < s.banks.length then bk else s.bank b' := by
  unfold bank setBank
  by_cases h : b' = b
  · subst h
    by_cases hb : b' < s.banks.length <;> simp [List.getD_eq_getElem?_getD, hb]
  · simp [List.getD_eq_getElem?_getD, h, Ne.symm h]

@[simp] theorem bank_setBank_other (h : b' ≠ b) : (s.setBank b bk).bank b' = s.bank b' := by
  simp [bank_setBank, h]

theorem bank_setBank_same (h : b < s.banks.length) : (s.setBank b bk).bank b = bk := by
  simp [bank_setBank, h]

theorem bank_of_length_le (h : s.banks.length ≤ b) : s.bank b = Bank.absent := by
  simp [bank, List.getD_eq_getElem?_getD, h]

theorem bank_mem (h : b < s.banks.length) : s.bank b ∈ s.banks := by
  simp [bank, List.getD_eq_getElem?_getD, h]

@[simp] theorem setBank_setBank (bk' : Bank) : (s.setBank b bk).setBank b bk' = s.setBank b bk' := by
  simp [setBank]

@[simp] theorem setBank_bank : s.setBank b (s.bank b) = s := by
  unfold setBank bank
  by_cases h : b < s.banks.length
  · simp [List.getD_eq_getElem?_getD, h]
  · rw [List.set_eq_of_length_le (by omega)]

/-- Writing a word array leaves every other bank alone. -/
@[simp] theorem bank_setWords_other (h : b' ≠ b) : (s.setWords b ws).bank b' = s.bank b' :=
  bank_setBank_other _ _ _ _ h

/-- Writing a word array of the same length writes that array and keeps the descriptor, also where there is no bank. -/
theorem bank_setWords_same (h : ws.length = (s.bank b).words.length) :
    (s.setWords b ws).bank b = { s.bank b with words := ws } := by
  unfold setWords
  by_cases hb : b < s.banks.length
  · exact bank_setBank_same _ _ _ hb
  · rw [bank_setBank, bank_of_length_le _ _ (by omega)] at *
    simp only [Bank.absent, List.length_nil, List.length_eq_zero_iff] at h
    simp [hb, h, Bank.absent]

theorem setWords_setWords (ws' : List Word) (h : ws.length = (s.bank b).words.length) :
    (s.setWords b ws).setWords b ws' = s.setWords b ws' := by
  rw [setWords, bank_setWords_same _ _ _ h]
  simp [setWords]

@[simp] theorem setWords_words : s.setWords b (s.bank b).words = s :=
  setBank_bank s b

theorem setWord_eq (w : Word) : s.setWord b k w = s.setWords b ((s.bank b).words.set k w) := rfl

theorem setDescriptor_eq (v : Bool) (l : Word) (c : Nat) :
    s.setDescriptor b v l c = s.setBank b ⟨v, l, c, (s.bank b).words⟩ := rfl

/-! ## How a command ends -/

theorem respond_eq (d : Word) (bs : List Byte) : s.respond d bs = .next (s.withResponse ⟨.ok, d, bs⟩) := rfl

theorem raise_eq (st : Status) (d : Word) : s.raise st d = .next (s.withResponse ⟨st, d, []⟩) := rfl

/-! ## The invariant -/

variable {s b}

theorem Inv.bank_ok (h : s.Inv) (hb : b < s.cfg.nbanks) : (s.bank b).Ok s.cfg :=
  h.2.2.1 _ (bank_mem _ _ (by rw [h.2.1]; exact hb))

theorem Inv.lt_length (h : s.Inv) (hb : b < s.cfg.nbanks) : b < s.banks.length := by
  rw [h.2.1]; exact hb

/-- Writing an acceptable bank keeps the invariant. -/
theorem Inv.setBank (h : s.Inv) (bk : Bank) (hbk : bk.Ok s.cfg) : (s.setBank b bk).Inv := by
  refine ⟨h.1, by simpa using h.2.1, fun x hx => ?_, h.2.2.2⟩
  rcases List.mem_or_eq_of_mem_set hx with hx | rfl
  · exact h.2.2.1 x hx
  · exact hbk

/-- A fresh response keeps the invariant. -/
theorem Inv.withResponse (h : s.Inv) (r : Response) : (s.withResponse r).Inv :=
  ⟨h.1, h.2.1, h.2.2.1, by simp [State.withResponse]⟩

end State

/-- The instance of a bank lies inside its word array (R20 I2, I3; R78: `n <= WMAX`). -/
theorem Bank.Ok.bitlen_le {cfg : Config} {bk : Bank} (h : bk.Ok cfg) :
    bk.bitlen.toNat ≤ 64 * bk.words.length := by
  obtain ⟨h1, h2, h3, h4⟩ := h
  cases hv : bk.valid with
  | false => simp [(h1 hv).1]
  | true => have := h3 hv; rw [h4]; omega

/-- Every bank after a reset is free and has `WMAX` words (R28, R30). -/
theorem banksAfterReset_getElem {cfg : Config} {w : Nat → Nat → Word} {b : Nat} (h : b < cfg.nbanks) :
    (banksAfterReset cfg w)[b]? = some ⟨false, 0, 0, (List.range cfg.wmax).map (w b)⟩ := by
  simp [banksAfterReset, h]

@[simp] theorem banksAfterReset_length (cfg : Config) (w : Nat → Nat → Word) :
    (banksAfterReset cfg w).length = cfg.nbanks := by
  simp [banksAfterReset]

theorem banksAfterReset_ok {cfg : Config} {w : Nat → Nat → Word} : ∀ bk ∈ banksAfterReset cfg w, bk.Ok cfg := by
  intro bk h
  obtain ⟨b, -, rfl⟩ := List.mem_map.1 h
  simp [Bank.Ok]

end Sys2Proof.Machine
end

