-- ==== Sys2Proof/Laws/Bits.lean ====
section
/-! SUPPORT. Bits of words and of word arrays: the shift-and-mask forms of spec/41_bit_primitives.md and
spec/20_memory.md R38, R39 say bit by bit what they do. -/

namespace Sys2Proof.Machine

/-! ## One word -/

/-- `(w >> o) & 1` is bit `o` (R71). -/
theorem shift_and_one (w : Word) (o : Nat) : ((w >>> o) &&& 1#64 == 1#64) = w.getLsbD o := by
  have : ((w >>> o) &&& 1#64) = (BitVec.ofBool (w.getLsbD o)).setWidth 64 := by
    apply BitVec.eq_of_getLsbD_eq
    intro i hi
    rcases Nat.eq_zero_or_pos i with rfl | h
    · simp
    · simp [h.ne']
  rw [this]
  cases w.getLsbD o <;> decide

/-- The bits of the single-bit mask `1 << o` (R72, R82). -/
theorem getLsbD_oneShift {o : Nat} (j : Nat) (h : o < 64) : (1#64 <<< o).getLsbD j = decide (j = o) := by
  rw [BitVec.getLsbD_shiftLeft, BitVec.getLsbD_one]
  by_cases e : j = o
  · subst e; simp [h]
  · simp only [e, decide_false]
    by_cases h1 : j < o
    · simp [h1]
    · have : ¬ j - o = 0 := by omega
      simp [this]

/-- Setting or clearing one bit with OR or AND-NOT (R72). -/
theorem getLsbD_setOne (w : Word) {o : Nat} (j : Nat) (v : Bool) (h : o < 64) :
    (if v then w ||| (1#64 <<< o) else w &&& ~~~(1#64 <<< o)).getLsbD j = if j = o then v else w.getLsbD j := by
  cases v
  · by_cases e : j = o
    · subst e; simp [h]
    · by_cases hj : j < 64
      · simp only [Bool.false_eq_true, if_false, BitVec.getLsbD_and, BitVec.getLsbD_not, getLsbD_oneShift _ h]
        simp [e, hj]
      · simp [e, BitVec.getLsbD_of_ge _ _ (Nat.le_of_not_lt hj)]
  · by_cases e : j = o <;> simp [getLsbD_oneShift _ h, e]

/-- `valueBit` is the bit of the value, and 0 above bit 63 (R37, R76). -/
theorem valueBit_eq (v : Word) (i : Nat) : valueBit v i = v.getLsbD i := by
  unfold valueBit
  split
  · exact shift_and_one v i
  · rw [BitVec.getLsbD_of_ge _ _ (by omega)]

/-- The bits of `mask n` (R38). -/
theorem getLsbD_mask {n : Nat} (j : Nat) (h : n ≤ 64) : (mask n).getLsbD j = decide (j < n) := by
  unfold mask
  by_cases hn : n < 64
  · simp only [hn, if_true, BitVec.getLsbD_ofNat, Nat.testBit_two_pow_sub_one]
    by_cases hj : j < n <;> simp [hj] ; omega
  · have : n = 64 := by omega
    subst this
    simp only [Nat.lt_irrefl, if_false, BitVec.getLsbD_allOnes]

/-! ## A word array -/

/-- Bit `i` of an array of words (R31). -/
def bitOf (ws : List Word) (i : Nat) : Bool := (ws.getD (i / 64) 0).getLsbD (i % 64)

theorem State.bit_eq (s : State) (b i : Nat) : s.bit b i = bitOf (s.bank b).words i := rfl

/-- A word of an array from its bits. -/
theorem getLsbD_getD (ws : List Word) (k : Nat) {j : Nat} (h : j < 64) :
    (ws.getD k 0).getLsbD j = bitOf ws (64 * k + j) := by
  unfold bitOf
  rw [show (64 * k + j) / 64 = k by omega, show (64 * k + j) % 64 = j by omega]

theorem bitOf_of_length_le (ws : List Word) {i : Nat} (h : 64 * ws.length ≤ i) : bitOf ws i = false := by
  unfold bitOf
  rw [List.getD_eq_getElem?_getD, List.getElem?_eq_none (by omega)]
  simp

/-- Two arrays of one length with the same bits are equal. -/
theorem eq_of_bitOf {ws ws' : List Word} (hl : ws.length = ws'.length) (h : ∀ i, bitOf ws i = bitOf ws' i) : ws = ws' := by
  apply List.ext_getElem hl
  intro k h1 h2
  apply BitVec.eq_of_getLsbD_eq
  intro j hj
  have := h (64 * k + j)
  rw [← getLsbD_getD ws k hj, ← getLsbD_getD ws' k hj] at this
  simpa [List.getD_eq_getElem?_getD, h1, h2] using this

/-- Two words of arrays are equal when their bits are. -/
theorem getD_eq_of_bitOf {ws ws' : List Word} {k : Nat} (h : ∀ j < 64, bitOf ws (64 * k + j) = bitOf ws' (64 * k + j)) :
    ws.getD k 0 = ws'.getD k 0 := by
  apply BitVec.eq_of_getLsbD_eq
  intro j hj
  rw [getLsbD_getD _ _ hj, getLsbD_getD _ _ hj, h j hj]

/-- The bits of an array after writing one word. -/
theorem bitOf_set (ws : List Word) (k : Nat) (w : Word) (i : Nat) (h : k < ws.length) :
    bitOf (ws.set k w) i = if i / 64 = k then w.getLsbD (i % 64) else bitOf ws i := by
  unfold bitOf
  by_cases e : i / 64 = k
  · subst e; simp [List.getD_eq_getElem?_getD, h]
  · simp [List.getD_eq_getElem?_getD, List.getElem?_set_ne (Ne.symm e), e]

/-- Writing one bit of an array through its word (R72). -/
theorem bitOf_setOne (ws : List Word) (i j : Nat) (v : Bool) (h : i < 64 * ws.length) :
    bitOf (ws.set (i / 64) (if v then ws.getD (i / 64) 0 ||| (1#64 <<< (i % 64))
      else ws.getD (i / 64) 0 &&& ~~~(1#64 <<< (i % 64)))) j = if j = i then v else bitOf ws j := by
  rw [bitOf_set _ _ _ _ (by omega), getLsbD_setOne _ _ _ (by omega)]
  by_cases e : j = i
  · subst e; simp
  · by_cases e1 : j / 64 = i / 64
    · have e2 : j % 64 ≠ i % 64 := by omega
      simp [e, e1, e2, bitOf]
    · simp [e, e1]

end Sys2Proof.Machine
end

