-- ==== Sys2Proof/Laws/Ops.lean ====
section
/-! SUPPORT. One specification lemma per shared operation: inside its range it never meets `IndexError` (spec/41 R73)
and what it does to the bits is said once. -/

namespace Sys2Proof.Machine

namespace State

variable {s : State} {b addr : Nat}

/-! ## The primitives (R71, R72) -/

/-- `getBit` inside the instance (R71). -/
theorem getBit_eq {i : Nat} (h : i < (s.bitlen b).toNat) : s.getBit b i = some (bitOf (s.bank b).words i) := by
  unfold getBit
  rw [if_neg (by omega), shift_and_one]
  rfl

/-- `setBit` inside the instance changes that bit and nothing else (R72). -/
theorem setBit_eq {i : Nat} (v : Bool) (h : i < (s.bitlen b).toNat) (hl : i < 64 * (s.bank b).words.length) :
    ∃ ws, s.setBit b i v = some (s.setWords b ws) ∧ ws.length = (s.bank b).words.length ∧
      ∀ j, bitOf ws j = if j = i then v else bitOf (s.bank b).words j := by
  refine ⟨_, ?_, List.length_set, fun j => bitOf_setOne (s.bank b).words i j v hl⟩
  unfold setBit
  rw [if_neg (by omega)]
  rfl

/-! ## The loops -/

/-- `MemWrite` (R37): the bits of the field take the bits of the value, 0 above bit 63; all others keep theirs. -/
theorem writeBits_spec (v : Word) : ∀ (n i : Nat) (s : State), addr + i + n ≤ (s.bitlen b).toNat →
    (s.bitlen b).toNat ≤ 64 * (s.bank b).words.length →
    ∃ ws, writeBits b addr v n i s = some (s.setWords b ws) ∧ ws.length = (s.bank b).words.length ∧
      ∀ j, bitOf ws j =
        if addr + i ≤ j ∧ j < addr + i + n then v.getLsbD (j - addr) else bitOf (s.bank b).words j
  | 0, i, s, _, _ => ⟨_, by simp [writeBits], rfl, fun j => by rw [if_neg (by omega)]⟩
  | n + 1, i, s, h, hl => by
    obtain ⟨ws, e, l, hb⟩ := setBit_eq (s := s) (b := b) (i := addr + i) (valueBit v i) (by omega) (by omega)
    have hbank := bank_setWords_same s b ws l
    obtain ⟨ws', e', l', hb'⟩ := writeBits_spec v n (i + 1) (s.setWords b ws)
      (by rw [bitlen, hbank]; change _ ≤ (s.bitlen b).toNat; omega) (by rw [bitlen, hbank]; change (s.bitlen b).toNat ≤ _; simp only [l]; omega)
    rw [hbank] at l' hb'
    refine ⟨ws', ?_, l'.trans l, fun j => ?_⟩
    · simp only [writeBits, e, e', setWords_setWords _ _ _ _ l]
    · rw [hb']
      by_cases c : addr + (i + 1) ≤ j ∧ j < addr + (i + 1) + n
      · rw [if_pos c, if_pos (by omega)]
      · rw [if_neg c, hb]
        by_cases c' : j = addr + i
        · subst c'
          rw [if_pos rfl, if_pos (by omega), valueBit_eq]
          congr 1; omega
        · rw [if_neg c', if_neg (by omega)]

/-- `MemRead` (R36): bit `j` of the result is bit `addr + j` of the bank inside the field, 0 above. -/
theorem readBits_spec : ∀ (n i : Nat) (r : Word), addr + i + n ≤ (s.bitlen b).toNat → i + n ≤ 64 →
    ∃ r', s.readBits b addr n i r = some r' ∧
      ∀ j, r'.getLsbD j = (r.getLsbD j || (decide (i ≤ j ∧ j < i + n) && bitOf (s.bank b).words (addr + j)))
  | 0, i, r, _, _ => ⟨r, rfl, fun j => by simp⟩
  | n + 1, i, r, h, hi => by
    have hg := getBit_eq (s := s) (b := b) (i := addr + i) (by omega)
    obtain ⟨r', e, hr⟩ := readBits_spec n (i + 1)
      (if bitOf (s.bank b).words (addr + i) then r ||| (1#64 <<< i) else r) (by omega) (by omega)
    refine ⟨r', by simp only [readBits, hg, e], fun j => ?_⟩
    rw [hr]
    by_cases c : j = i
    · subst c
      cases hx : bitOf (s.bank b).words (addr + j) <;> simp [getLsbD_oneShift j (show j < 64 by omega)]
    · have : (if bitOf (s.bank b).words (addr + i) then r ||| (1#64 <<< i) else r).getLsbD j = r.getLsbD j := by
        split
        · simp [getLsbD_oneShift j (show i < 64 by omega), c]
        · rfl
      rw [this]
      congr 2
      exact decide_eq_decide.2 (by omega)

/-- The loop of SETF (R74, R75): the field takes the bits of the source, the rest keeps its own. Naming one bank twice
is covered at offset 0, the only offset that passes the range check there (R75). -/
theorem copyBits_spec {bt bo : Nat} (hne : bt ≠ bo ∨ addr = 0) : ∀ (n i : Nat) (s : State),
    addr + i + n ≤ (s.bitlen bt).toNat → i + n ≤ (s.bitlen bo).toNat →
    (s.bitlen bt).toNat ≤ 64 * (s.bank bt).words.length →
    ∃ ws, copyBits bt addr bo n i s = some (s.setWords bt ws) ∧ ws.length = (s.bank bt).words.length ∧
      ∀ j, bitOf ws j =
        if addr + i ≤ j ∧ j < addr + i + n then bitOf (s.bank bo).words (j - addr) else bitOf (s.bank bt).words j
  | 0, i, s, _, _, _ => ⟨_, by simp [copyBits], rfl, fun j => by rw [if_neg (by omega)]⟩
  | n + 1, i, s, h, ho, hl => by
    have hg := getBit_eq (s := s) (b := bo) (i := i) (by omega)
    obtain ⟨ws, e, l, hb⟩ := setBit_eq (s := s) (b := bt) (i := addr + i) (bitOf (s.bank bo).words i) (by omega) (by omega)
    have hbank := bank_setWords_same s bt ws l
    have hlen : (s.setWords bt ws).bitlen bo = s.bitlen bo := by
      unfold bitlen
      by_cases hq : bo = bt
      · subst hq; rw [hbank]
      · rw [bank_setWords_other _ _ _ _ hq]
    have hbits : ∀ j, bitOf ((s.setWords bt ws).bank bo).words j = bitOf (s.bank bo).words j := by
      intro j
      by_cases hq : bo = bt
      · have ha : addr = 0 := by rcases hne with h | h; exact absurd hq.symm h; exact h
        subst hq
        rw [hbank, hb]
        split
        · subst ha; rename_i c; subst c; simp
        · rfl
      · rw [bank_setWords_other _ _ _ _ hq]
    obtain ⟨ws', e', l', hb'⟩ := copyBits_spec hne n (i + 1) (s.setWords bt ws)
      (by rw [bitlen, hbank]; change _ ≤ (s.bitlen bt).toNat; omega) (by rw [hlen]; omega)
      (by rw [bitlen, hbank]; change (s.bitlen bt).toNat ≤ _; simp only [l]; omega)
    rw [hbank] at l' hb'
    refine ⟨ws', ?_, l'.trans l, fun j => ?_⟩
    · simp only [copyBits, hg, e, e', setWords_setWords _ _ _ _ l]
    · rw [hb']
      by_cases c : addr + (i + 1) ≤ j ∧ j < addr + (i + 1) + n
      · rw [if_pos c, if_pos (by omega), hbits]
      · rw [if_neg c, hb]
        by_cases c' : j = addr + i
        · subst c'
          rw [if_pos rfl, if_pos (by omega)]
          congr 1; omega
        · rw [if_neg c', if_neg (by omega)]

/-- The loop of GETF (R78, R82): bit `j` of the result is bit `addr + j` of the source, for every `j % 64`. -/
theorem extractBits_spec : ∀ (n i : Nat) (tmp : List Word), addr + i + n ≤ (s.bitlen b).toNat →
    i + n ≤ 64 * tmp.length →
    ∃ r, s.extractBits b addr n i tmp = some r ∧ r.length = tmp.length ∧
      ∀ j, bitOf r j = (bitOf tmp j || (decide (i ≤ j ∧ j < i + n) && bitOf (s.bank b).words (addr + j)))
  | 0, i, tmp, _, _ => ⟨tmp, rfl, rfl, fun j => by simp⟩
  | n + 1, i, tmp, h, hi => by
    have hg := getBit_eq (s := s) (b := b) (i := addr + i) (by omega)
    have hset : ∀ j, bitOf (tmp.set (wordIndex i) (tmp.getD (wordIndex i) 0 ||| (1#64 <<< bitOffset i))) j =
        if j = i then true else bitOf tmp j := fun j => bitOf_setOne tmp i j true (by omega)
    obtain ⟨r, e, l, hr⟩ := extractBits_spec n (i + 1)
      (if bitOf (s.bank b).words (addr + i) then
        tmp.set (wordIndex i) (tmp.getD (wordIndex i) 0 ||| (1#64 <<< bitOffset i)) else tmp)
      (by omega) (by split <;> (try rw [List.length_set]) <;> omega)
    refine ⟨r, by simp only [extractBits, hg, e], l.trans (by split <;> simp), fun j => ?_⟩
    rw [hr]
    by_cases c : j = i
    · subst c
      have hc : decide (j + 1 ≤ j ∧ j < j + 1 + n) = false := decide_eq_false (by omega)
      have hd : decide (j ≤ j ∧ j < j + (n + 1)) = true := decide_eq_true (by omega)
      rw [hc, hd]
      cases hx : bitOf (s.bank b).words (addr + j)
      · simp
      · rw [if_pos rfl, hset, if_pos rfl]; simp
    · have : bitOf (if bitOf (s.bank b).words (addr + i) then
          tmp.set (wordIndex i) (tmp.getD (wordIndex i) 0 ||| (1#64 <<< bitOffset i)) else tmp) j = bitOf tmp j := by
        split
        · rw [hset, if_neg c]
        · rfl
      rw [this]
      congr 2
      exact decide_eq_decide.2 (by omega)

end State

/-! ## The commit of GETF (R78, R79) -/

theorem State.overlay_length : ∀ xs old : List Word, (State.overlay xs old).length = old.length
  | [], _ => rfl
  | _ :: _, [] => rfl
  | _ :: xs, _ :: old => by simp [State.overlay, State.overlay_length xs old]

/-- The committed words: the new ones first, the old ones above (R78, R79 (c)). -/
theorem State.overlay_getD : ∀ (xs old : List Word) (k : Nat), xs.length ≤ old.length →
    (State.overlay xs old).getD k 0 = if k < xs.length then xs.getD k 0 else old.getD k 0
  | [], _, _, _ => by simp [State.overlay]
  | _ :: _, [], _, h => by simp at h
  | x :: xs, y :: old, 0, _ => by simp [State.overlay]
  | x :: xs, y :: old, k + 1, h => by
    have := State.overlay_getD xs old k (by simpa using h)
    simpa [State.overlay, List.getD_eq_getElem?_getD] using this

/-- The zero words GETF starts from have no bit set (R78). -/
theorem bitOf_replicate (n i : Nat) : bitOf (List.replicate n 0) i = false := by
  unfold bitOf
  rw [List.getD_eq_getElem?_getD, List.getElem?_replicate]
  split <;> simp

/-! ## The word-level forms (R38, R39) -/

namespace State

/-- Bit by bit, the word-level `MemRead` is R36's (R38). -/
theorem memReadWords_bits (s : State) (b addr : Nat) {n : Nat} (h : n ≤ 64) (j : Nat) :
    (s.memReadWords b addr n).getLsbD j = (decide (j < n) && bitOf (s.bank b).words (addr + j)) := by
  have e : ∀ q, s.word b q = (s.bank b).words.getD q 0 := fun _ => rfl
  unfold memReadWords wordIndex bitOffset
  simp only [e]
  by_cases hj : j < n
  · split
    · rename_i hs
      rw [BitVec.getLsbD_and, getLsbD_mask _ h, BitVec.getLsbD_ushiftRight, getLsbD_getD _ _ (by omega)]
      simp only [hj, decide_true, Bool.and_true, Bool.true_and]
      congr 1; omega
    · rename_i hs
      rw [BitVec.getLsbD_and, getLsbD_mask _ h, BitVec.getLsbD_or, BitVec.getLsbD_ushiftRight, BitVec.getLsbD_shiftLeft]
      by_cases c : addr % 64 + j < 64
      · rw [getLsbD_getD _ _ c]
        simp only [show j < 64 - addr % 64 by omega, hj, decide_true, Bool.not_true, Bool.and_false, Bool.false_and,
          Bool.or_false, Bool.and_true, Bool.true_and]
        congr 1; omega
      · rw [BitVec.getLsbD_of_ge _ _ (Nat.le_of_not_lt c), getLsbD_getD _ _ (by omega)]
        simp only [show ¬ j < 64 - addr % 64 by omega, show j < 64 by omega, hj, decide_true, decide_false,
          Bool.not_false, Bool.and_true, Bool.true_and, Bool.false_or]
        congr 1; omega
  · split <;> simp [getLsbD_mask _ h, hj]

/-- Bit by bit, the word-level `MemWrite` is R37's (R39). -/
theorem memWriteWords_bits (s : State) (b addr : Nat) (v : Word) {n : Nat} (h1 : 1 ≤ n) (h : n ≤ 64)
    (hl : addr + n ≤ 64 * (s.bank b).words.length) :
    ∃ ws, s.memWriteWords b addr n v = s.setWords b ws ∧ ws.length = (s.bank b).words.length ∧
      ∀ j, bitOf ws j = if addr ≤ j ∧ j < addr + n then v.getLsbD (j - addr) else bitOf (s.bank b).words j := by
  unfold memWriteWords
  dsimp only
  split
  · rename_i hs
    refine ⟨_, rfl, List.length_set, fun j => ?_⟩
    rw [bitOf_set _ _ _ _ (by unfold wordIndex; omega)]
    unfold wordIndex bitOffset at *
    by_cases q : j / 64 = addr / 64
    · rw [if_pos q]
      have : (s.word b (addr / 64)).getLsbD (j % 64) = bitOf (s.bank b).words j := by
        unfold bitOf; rw [q]; rfl
      rw [BitVec.getLsbD_or, BitVec.getLsbD_and, BitVec.getLsbD_not, BitVec.getLsbD_shiftLeft, BitVec.getLsbD_shiftLeft,
        BitVec.getLsbD_and, getLsbD_mask _ h, this]
      simp only [show j % 64 < 64 by omega, decide_true, Bool.true_and]
      by_cases c : addr ≤ j ∧ j < addr + n
      · rw [if_pos c]
        simp only [show ¬ j % 64 < addr % 64 by omega, show j % 64 - addr % 64 < n by omega, decide_true, decide_false,
          Bool.not_false, Bool.not_true, Bool.and_true, Bool.true_and, Bool.and_false, Bool.false_or]
        congr 1; omega
      · rw [if_neg c]
        by_cases c2 : j % 64 < addr % 64
        · simp [c2]
        · simp [c2, show ¬ j % 64 - addr % 64 < n by omega]
    · rw [if_neg q, if_neg (by omega)]
  · rename_i hs
    unfold wordIndex bitOffset at *
    have hl1 : ∀ x : Word, ((s.bank b).words.set (addr / 64) x).length = (s.bank b).words.length := fun _ => List.length_set
    refine ⟨_, by rw [setWord_eq, setWord_eq, setWords_setWords _ _ _ _ (hl1 _)], ?_, fun j => ?_⟩
    · rw [bank_setWords_same _ _ _ (hl1 _)]; simp
    · rw [bank_setWords_same _ _ _ (hl1 _)]
      rw [bitOf_set _ _ _ _ (by rw [hl1]; omega), bitOf_set _ _ _ _ (by omega)]
      have hq : ∀ x, (s.setWord b (addr / 64) x).word b (addr / 64 + 1) = s.word b (addr / 64 + 1) := by
        intro x
        unfold word
        rw [setWord_eq, bank_setWords_same _ _ _ (hl1 _)]
        simp [Bank.word, List.getD_eq_getElem?_getD]
      rw [← setWord_eq, hq]
      by_cases q1 : j / 64 = addr / 64 + 1
      · rw [if_pos q1]
        have : (s.word b (addr / 64 + 1)).getLsbD (j % 64) = bitOf (s.bank b).words j := by
          unfold bitOf; rw [q1]; rfl
        rw [BitVec.getLsbD_or, BitVec.getLsbD_and, BitVec.getLsbD_not, BitVec.getLsbD_ushiftRight, BitVec.getLsbD_and,
          getLsbD_mask _ (by omega), getLsbD_mask _ h, this]
        simp only [show j % 64 < 64 by omega, decide_true, Bool.true_and]
        by_cases c : addr ≤ j ∧ j < addr + n
        · rw [if_pos c]
          simp only [show j % 64 < n - (64 - addr % 64) by omega, show 64 - addr % 64 + j % 64 < n by omega, decide_true,
            Bool.not_true, Bool.and_false, Bool.false_or, Bool.and_true]
          congr 1; omega
        · rw [if_neg c]
          simp [show ¬ j % 64 < n - (64 - addr % 64) by omega, show ¬ 64 - addr % 64 + j % 64 < n by omega]
      · rw [if_neg q1]
        by_cases q : j / 64 = addr / 64
        · rw [if_pos q]
          have : (s.word b (addr / 64)).getLsbD (j % 64) = bitOf (s.bank b).words j := by
            unfold bitOf; rw [q]; rfl
          rw [BitVec.getLsbD_or, BitVec.getLsbD_and, BitVec.getLsbD_not, BitVec.getLsbD_shiftLeft,
            BitVec.getLsbD_shiftLeft, BitVec.getLsbD_and, BitVec.getLsbD_and, getLsbD_mask _ h,
            getLsbD_mask _ (by omega), this]
          simp only [show j % 64 < 64 by omega, decide_true, Bool.true_and]
          by_cases c : addr ≤ j ∧ j < addr + n
          · rw [if_pos c]
            simp only [show ¬ j % 64 < addr % 64 by omega, show j % 64 - addr % 64 < n by omega,
              show j % 64 - addr % 64 < 64 - addr % 64 by omega, decide_true, decide_false,
              Bool.not_false, Bool.not_true, Bool.and_true, Bool.true_and, Bool.and_false, Bool.false_or]
            congr 1; omega
          · rw [if_neg c]
            have c2 : j % 64 < addr % 64 := by omega
            simp [c2]
        · rw [if_neg q, if_neg (by omega)]

end State

end Sys2Proof.Machine
end

