-- ==== Sys2Proof/Laws/Exec.lean ====
section
/-! SUPPORT. What `exec` answers, once for all commands: either the error `errorOf` names, with nothing else changed, or
the `Effect` of the command. -/

namespace Sys2Proof.Machine

/-- The error a command is answered with, and its `data`, in the priority of spec/60 R96; `none` where it succeeds. -/
def errorOf (s : State) : Instr → Option (Status × Word)
  | .ldw bt a _ =>
    if s.cfg.nbanks ≤ bt.toNat then some (.illegalCommand, 0)
    else if s.valid bt.toNat = true then some (.bankInUse, 0)
    else if s.cfg.wmax ≤ a.toNat then some (.limitError, BitVec.ofNat 64 s.cfg.wmax) else none
  | .new bt a b =>
    if s.cfg.nbanks ≤ bt.toNat then some (.illegalCommand, 0)
    else if s.valid bt.toNat = true then some (.bankInUse, 0)
    else if s.cfg.wmax < b.toNat then some (.limitError, BitVec.ofNat 64 s.cfg.wmax)
    else if b.toNat * 64 < a.toNat then some (.capacityError, BitVec.ofNat 64 (b.toNat * 64)) else none
  | .free bt => if s.cfg.nbanks ≤ bt.toNat then some (.illegalCommand, 0) else none
  | .len bt =>
    if s.cfg.nbanks ≤ bt.toNat then some (.illegalCommand, 0)
    else if s.valid bt.toNat = false then some (.noInstance, 0) else none
  | .setf bt bo a =>
    if s.cfg.nbanks ≤ bt.toNat ∨ s.cfg.nbanks ≤ bo.toNat then some (.illegalCommand, 0)
    else if s.valid bt.toNat = false ∨ s.valid bo.toNat = false then some (.noInstance, 0)
    else if (s.bitlen bt.toNat).toNat < a.toNat + (s.bitlen bo.toNat).toNat then
      some (.rangeError, s.bitlen bt.toNat) else none
  | .setfi bt a b _ =>
    if s.cfg.nbanks ≤ bt.toNat then some (.illegalCommand, 0)
    else if s.valid bt.toNat = false then some (.noInstance, 0)
    else if (s.bitlen bt.toNat).toNat < a.toNat + b.toNat then some (.rangeError, s.bitlen bt.toNat) else none
  | .getf bt bo a b =>
    if s.cfg.nbanks ≤ bt.toNat ∨ s.cfg.nbanks ≤ bo.toNat then some (.illegalCommand, 0)
    else if s.valid bt.toNat = false then some (.noInstance, 0)
    else if (s.bitlen bt.toNat).toNat < a.toNat + b.toNat then some (.rangeError, s.bitlen bt.toNat) else none
  | .getfi bt a b =>
    if s.cfg.nbanks ≤ bt.toNat then some (.illegalCommand, 0)
    else if s.valid bt.toNat = false then some (.noInstance, 0)
    else if 64 < b.toNat ∨ (s.bitlen bt.toNat).toNat < a.toNat + b.toNat then
      some (.rangeError, s.bitlen bt.toNat) else none
  | .hex bt =>
    if s.cfg.nbanks ≤ bt.toNat then some (.illegalCommand, 0)
    else if s.valid bt.toNat = false then some (.noInstance, 0) else none

/-- The successful response with `data` and no bytes. -/
abbrev okData (d : Word) : Response := ⟨.ok, d, []⟩

/-- What a successful command leaves. -/
def Effect (s t : State) : Instr → Prop
  | .ldw bt a v => t = (s.setWord bt.toNat a.toNat v).withResponse (okData 0)
  | .new bt a b => t = (s.setDescriptor bt.toNat true a b.toNat).withResponse (okData 0)
  | .free bt => t = (s.setDescriptor bt.toNat false 0 0).withResponse (okData 0)
  | .len bt => t = s.withResponse (okData (s.bitlen bt.toNat))
  | .setf bt bo a =>
    ∃ ws, t = (s.setWords bt.toNat ws).withResponse (okData 0) ∧ ws.length = (s.bank bt.toNat).words.length ∧
      ∀ j, bitOf ws j = if a.toNat ≤ j ∧ j < a.toNat + (s.bitlen bo.toNat).toNat
        then bitOf (s.bank bo.toNat).words (j - a.toNat) else bitOf (s.bank bt.toNat).words j
  | .setfi bt a b v =>
    ∃ ws, t = (s.setWords bt.toNat ws).withResponse (okData 0) ∧ ws.length = (s.bank bt.toNat).words.length ∧
      ∀ j, bitOf ws j = if a.toNat ≤ j ∧ j < a.toNat + b.toNat
        then v.getLsbD (j - a.toNat) else bitOf (s.bank bt.toNat).words j
  | .getf bt bo a b =>
    ∃ tmp, t = (s.setBank bo.toNat ⟨true, b, wordsFor b.toNat,
        State.overlay tmp (s.bank bo.toNat).words⟩).withResponse (okData 0) ∧ tmp.length = wordsFor b.toNat ∧
      ∀ j, bitOf tmp j = (decide (j < b.toNat) && bitOf (s.bank bt.toNat).words (a.toNat + j))
  | .getfi bt a b =>
    ∃ r : Word, t = s.withResponse (okData r) ∧
      ∀ j, r.getLsbD j = (decide (j < b.toNat) && bitOf (s.bank bt.toNat).words (a.toNat + j))
  | .hex bt => t = s.withResponse ⟨.ok, 0, s.hexString bt.toNat (s.wcount bt.toNat)⟩

theorem hasBank_eq_false {s : State} {b : BankIx} : s.hasBank b = false ↔ s.cfg.nbanks ≤ b.toNat := by
  simp [State.hasBank]

theorem inRange_eq_false {s : State} {b : Nat} {off : Word} {n : Nat} :
    s.inRange b off n = false ↔ (s.bitlen b).toNat < off.toNat + n := by
  rw [State.inRange, rangeEnd, decide_eq_false_iff_not, Nat.not_le]

/-- A command with an error answers it and changes nothing else (R95). -/
theorem exec_error {s : State} {i : Instr} {st : Status} {d : Word} (h : errorOf s i = some (st, d)) :
    exec i s = .next (s.withResponse ⟨st, d, []⟩) := by
  cases i <;>
    simp only [errorOf] at h <;>
    simp only [exec, execLdw, execNew, execFree, execLen, execSetf, execSetfi, execGetf, execGetfi, execHex,
      hasBank_eq_false, inRange_eq_false, Config.fieldIntMax] <;>
    split_ifs at h ⊢ <;> (cases h; rfl)

/-- A command without an error has its effect. -/
theorem exec_effect {s : State} {i : Instr} (hs : s.Inv) (h : errorOf s i = none) :
    ∃ t, exec i s = .next t ∧ Effect s t i := by
  cases i with
  | ldw bt a v =>
    simp only [errorOf] at h
    split_ifs at h with h1 h2 h3
    exact ⟨_, by simp only [exec, execLdw, hasBank_eq_false, h1, h2, h3, if_false]; rfl, rfl⟩
  | new bt a b =>
    simp only [errorOf] at h
    split_ifs at h with h1 h2 h3 h4
    exact ⟨_, by simp only [exec, execNew, hasBank_eq_false, h1, h2, h3, h4, if_false]; rfl, rfl⟩
  | free bt =>
    simp only [errorOf] at h
    split_ifs at h with h1
    exact ⟨_, by simp only [exec, execFree, hasBank_eq_false, h1, if_false]; rfl, rfl⟩
  | len bt =>
    simp only [errorOf] at h
    split_ifs at h with h1 h2
    exact ⟨_, by simp only [exec, execLen, hasBank_eq_false, h1, h2, if_false]; rfl, rfl⟩
  | setf bt bo a =>
    simp only [errorOf] at h
    split_ifs at h with h1 h2 h3
    have hcov := (hs.bank_ok (b := bt.toNat) (by omega)).bitlen_le
    have hne : bt.toNat ≠ bo.toNat ∨ a.toNat = 0 := by
      by_cases e : bt.toNat = bo.toNat
      · rw [← e] at h3; right; omega
      · exact .inl e
    obtain ⟨ws, e, l, hb⟩ := State.copyBits_spec (s := s) (addr := a.toNat) hne (s.bitlen bo.toNat).toNat 0 (by omega) (by omega) hcov
    refine ⟨_, ?_, ws, rfl, l, by simpa using hb⟩
    simp only [exec, execSetf, hasBank_eq_false, h1, h2, inRange_eq_false, h3, e, if_false]
    rfl
  | setfi bt a b v =>
    simp only [errorOf] at h
    split_ifs at h with h1 h2 h3
    have hcov := (hs.bank_ok (b := bt.toNat) (by omega)).bitlen_le
    obtain ⟨ws, e, l, hb⟩ := State.writeBits_spec (b := bt.toNat) (addr := a.toNat) v b.toNat 0 s (by omega) hcov
    refine ⟨_, ?_, ws, rfl, l, by simpa using hb⟩
    simp only [exec, execSetfi, hasBank_eq_false, h1, h2, inRange_eq_false, h3, State.memWrite, e, if_false]
    rfl
  | getf bt bo a b =>
    simp only [errorOf] at h
    split_ifs at h with h1 h2 h3
    obtain ⟨tmp, e, l, hb⟩ := State.extractBits_spec (s := s) (b := bt.toNat) (addr := a.toNat) b.toNat 0
      (List.replicate (wordsFor b.toNat) 0) (by omega) (by rw [List.length_replicate, wordsFor]; omega)
    rw [List.length_replicate] at l
    refine ⟨_, ?_, tmp, rfl, l, fun j => by rw [hb, bitOf_replicate]; simp⟩
    simp only [exec, execGetf, hasBank_eq_false, h1, h2, inRange_eq_false, h3, e, if_false]
    simp only [State.commitInstance, l]
    rfl
  | getfi bt a b =>
    simp only [errorOf] at h
    split_ifs at h with h1 h2 h3
    obtain ⟨r, e, hr⟩ := State.readBits_spec (s := s) (b := bt.toNat) (addr := a.toNat) b.toNat 0 0 (by omega) (by omega)
    refine ⟨_, ?_, r, rfl, fun j => by rw [hr]; simp⟩
    simp only [exec, execGetfi, hasBank_eq_false, h1, h2, Config.fieldIntMax, inRange_eq_false, h3, State.memRead, e, if_false]
    rfl
  | hex bt =>
    simp only [errorOf] at h
    split_ifs at h with h1 h2
    exact ⟨_, by simp only [exec, execHex, hasBank_eq_false, h1, h2, if_false]; rfl, rfl⟩

/-- Everything a command can do, once: an error with nothing else changed, or its effect. -/
theorem exec_cases {s t : State} {i : Instr} (hs : s.Inv) (h : exec i s = .next t) :
    (∃ st d, errorOf s i = some (st, d) ∧ t = s.withResponse ⟨st, d, []⟩) ∨ (errorOf s i = none ∧ Effect s t i) := by
  cases e : errorOf s i with
  | some p =>
    obtain ⟨st, d⟩ := p
    rw [exec_error e] at h
    exact .inl ⟨st, d, rfl, by cases h; rfl⟩
  | none =>
    obtain ⟨t', h', he⟩ := exec_effect hs e
    rw [h'] at h
    cases h
    exact .inr ⟨rfl, he⟩

/-- No error is `OK`. -/
theorem errorOf_ne_ok {s : State} {i : Instr} {st : Status} {d : Word} (h : errorOf s i = some (st, d)) : st ≠ .ok := by
  cases i <;> simp only [errorOf] at h <;> split_ifs at h <;> cases h <;> decide

/-- A command without an error names banks that exist (R58). -/
theorem wellFormed_of_errorOf {s : State} {i : Instr} (h : errorOf s i = none) : i.WellFormed s.cfg := by
  cases i <;> simp only [errorOf] at h <;> split_ifs at h <;> simp_all [Instr.WellFormed, Instr.bt, Instr.bo?]

/-! ## From every state, also one that meets no invariant -/

/-- `t` differs from `s` in the banks alone. -/
def OnlyBanks (s t : State) : Prop := ∃ bs, t = { s with banks := bs }

theorem OnlyBanks.refl (s : State) : OnlyBanks s s := ⟨s.banks, rfl⟩

theorem OnlyBanks.trans {s t u : State} (h : OnlyBanks s t) (h' : OnlyBanks t u) : OnlyBanks s u := by
  obtain ⟨bs, rfl⟩ := h
  obtain ⟨bs', rfl⟩ := h'
  exact ⟨bs', rfl⟩

theorem onlyBanks_setBank (s : State) (b : Nat) (bk : Bank) : OnlyBanks s (s.setBank b bk) := ⟨_, rfl⟩

theorem onlyBanks_setBit {s t : State} {b i : Nat} {v : Bool} (h : s.setBit b i v = some t) : OnlyBanks s t := by
  unfold State.setBit at h
  split at h
  · cases h
  · cases h
    exact onlyBanks_setBank _ _ _

theorem onlyBanks_writeBits {b addr : Nat} {v : Word} :
    ∀ {n i : Nat} {s t : State}, State.writeBits b addr v n i s = some t → OnlyBanks s t
  | 0, _, s, _, h => by cases h; exact .refl s
  | n + 1, i, s, t, h => by
    unfold State.writeBits at h
    split at h
    · cases h
    · exact (onlyBanks_setBit ‹_›).trans (onlyBanks_writeBits h)

theorem onlyBanks_copyBits {bt addr bo : Nat} :
    ∀ {n i : Nat} {s t : State}, State.copyBits bt addr bo n i s = some t → OnlyBanks s t
  | 0, _, s, _, h => by cases h; exact .refl s
  | n + 1, i, s, t, h => by
    unfold State.copyBits at h
    split at h
    · cases h
    · split at h
      · cases h
      · exact (onlyBanks_setBit ‹_›).trans (onlyBanks_copyBits h)

/-- Every command, from every state, answers one response in a next state that differs only in the banks and the response
port; a response other than `OK` leaves the banks too, and has no bytes (R66, R95, R98). -/
theorem exec_answers (i : Instr) (s : State) :
    ∃ t r, exec i s = .next (t.withResponse r) ∧ OnlyBanks s t ∧ (r.status ≠ .ok → t = s ∧ r.bytes = []) := by
  have hr : ∀ st d, ∃ t r, s.raise st d = .next (t.withResponse r) ∧ OnlyBanks s t ∧
      (r.status ≠ .ok → t = s ∧ r.bytes = []) := fun st d => ⟨s, _, rfl, .refl s, fun _ => ⟨rfl, rfl⟩⟩
  have ha : ∀ u d bs, OnlyBanks s u → ∃ t r, u.respond d bs = .next (t.withResponse r) ∧ OnlyBanks s t ∧
      (r.status ≠ .ok → t = s ∧ r.bytes = []) := fun u d bs h => ⟨u, _, rfl, h, fun hn => absurd rfl hn⟩
  cases i <;>
    simp only [exec, execLdw, execNew, execFree, execLen, execSetf, execSetfi, execGetf, execGetfi, execHex] <;>
    split_ifs <;>
    first
      | exact hr _ _
      | exact ha _ _ _ (.refl s)
      | exact ha _ _ _ (onlyBanks_setBank _ _ _)
      | (split
         · exact hr _ _
         · first
           | exact ha _ _ _ (onlyBanks_copyBits ‹_›)
           | exact ha _ _ _ (onlyBanks_writeBits ‹_›)
           | exact ha _ _ _ (onlyBanks_setBank _ _ _)
           | exact ha _ _ _ (.refl s))

end Sys2Proof.Machine
end

