-- ==== Sys2Proof/Laws/Effects.lean ====
section
/-! SUPPORT. What the effects of the commands leave to observe, and that they keep the invariants
(spec/10_state.md R20). -/

namespace Sys2Proof.Machine

namespace State

variable {s : State} {b : Nat} {ws : List Word}

/-! ## Observations after an update -/

/-- The bits of a bank after its words are written. -/
theorem bit_setWords (h : ws.length = (s.bank b).words.length) (j : Nat) : (s.setWords b ws).bit b j = bitOf ws j := by
  rw [bit_eq, bank_setWords_same s b ws h]

/-- The words of a bank after they are written. -/
theorem word_setWords (h : ws.length = (s.bank b).words.length) (k : Nat) : (s.setWords b ws).word b k = ws.getD k 0 := by
  rw [word, bank_setWords_same s b ws h]
  rfl

/-- A bank after its descriptor is written: its words stay. -/
theorem bank_setDescriptor {v : Bool} {l : Word} {c : Nat} (hb : b < s.banks.length) :
    (s.setDescriptor b v l c).bank b = ⟨v, l, c, (s.bank b).words⟩ := bank_setBank_same s _ _ hb

/-- The bits GETF commits: the new ones first, the old ones above (R78). -/
theorem bitOf_overlay {xs old : List Word} (h : xs.length ≤ old.length) (j : Nat) :
    bitOf (overlay xs old) j = if j < 64 * xs.length then bitOf xs j else bitOf old j := by
  unfold bitOf
  rw [overlay_getD _ _ _ h]
  by_cases c : j < 64 * xs.length
  · rw [if_pos (by omega), if_pos c]
  · rw [if_neg (by omega), if_neg c]

/-- The words of a field of a valid range fit in every bank (R78: `n <= WMAX`). -/
theorem Inv.wordsFor_le {bt bo : BankIx} {a b : Word} (hs : s.Inv) (hb : bt.toNat < s.cfg.nbanks)
    (ho : bo.toNat < s.cfg.nbanks) (h : a.toNat + b.toNat ≤ (s.bitlen bt.toNat).toNat) :
    wordsFor b.toNat ≤ (s.bank bo.toNat).words.length := by
  have h1 : (s.bitlen bt.toNat).toNat ≤ 64 * (s.bank bt.toNat).words.length := (hs.bank_ok hb).bitlen_le
  have h2 : (s.bank bt.toNat).words.length = s.cfg.wmax := (hs.bank_ok hb).2.2.2
  have h3 : (s.bank bo.toNat).words.length = s.cfg.wmax := (hs.bank_ok ho).2.2.2
  simp only [wordsFor]
  omega

end State

/-- `2^n - 1` as 64-bit arithmetic is `mask n` below 64 (R77). -/
theorem two_pow_sub_one_eq_mask {n : Nat} (h : n < 64) : BitVec.ofNat 64 (2 ^ n) - 1 = mask n := by
  unfold mask
  rw [if_pos h]
  apply BitVec.eq_of_toNat_eq
  have h1 : 2 ^ n < 2 ^ 64 := Nat.pow_lt_pow_right (by omega) (by omega)
  have h2 : 1 ≤ 2 ^ n := Nat.one_le_two_pow
  simp [BitVec.toNat_sub]
  omega

/-! ## Statuses, from every state -/

/-- From every state, also one that meets no invariant: a command is answered its error, or `OK`, or `RANGE_ERROR` (where
a loop met `IndexError`, which no invariant state shows; log 8). -/
theorem exec_status (s : State) (i : Instr) :
    (∃ st d, errorOf s i = some (st, d) ∧ exec i s = .next (s.withResponse ⟨st, d, []⟩)) ∨
      (errorOf s i = none ∧ ∃ (t : State) (r : Response),
        exec i s = .next (t.withResponse r) ∧ (r.status = .ok ∨ r.status = .rangeError)) := by
  cases e : errorOf s i with
  | some p => obtain ⟨st, d⟩ := p; exact .inl ⟨st, d, rfl, exec_error e⟩
  | none =>
    refine .inr ⟨rfl, ?_⟩
    cases i <;>
      simp only [errorOf] at e <;>
      simp only [exec, execLdw, execNew, execFree, execLen, execSetf, execSetfi, execGetf, execGetfi, execHex,
        hasBank_eq_false, inRange_eq_false, Config.fieldIntMax] <;>
      split_ifs at e ⊢ <;>
      first
        | exact ⟨_, _, rfl, .inl rfl⟩
        | (split
           · exact ⟨_, _, rfl, .inr rfl⟩
           · exact ⟨_, _, rfl, .inl rfl⟩)

/-! ## The invariants -/

/-- An effect keeps the invariants. -/
theorem State.Inv.effect {s t : State} {i : Instr} (hs : s.Inv) (hn : errorOf s i = none) (h : Effect s t i) : t.Inv := by
  have hw := wellFormed_of_errorOf hn
  cases i with
  | ldw bt a v =>
    cases h
    refine State.Inv.withResponse (State.Inv.setBank hs _ ?_) _
    have := hs.bank_ok (b := bt.toNat) hw.1
    simpa [Bank.Ok] using this
  | new bt a b =>
    cases h
    refine State.Inv.withResponse (State.Inv.setBank hs _ ?_) _
    have := hs.bank_ok (b := bt.toNat) hw.1
    simp only [errorOf] at hn
    split_ifs at hn
    simp only [Bank.Ok] at *
    simp
    omega
  | free bt =>
    cases h
    refine State.Inv.withResponse (State.Inv.setBank hs _ ?_) _
    have := hs.bank_ok (b := bt.toNat) hw.1
    simp only [Bank.Ok] at *
    simp
    omega
  | len bt => cases h; exact State.Inv.withResponse hs _
  | setf bt bo a =>
    obtain ⟨ws, rfl, l, _⟩ := h
    refine State.Inv.withResponse (State.Inv.setBank hs _ ?_) _
    have := hs.bank_ok (b := bt.toNat) hw.1
    simpa [Bank.Ok, l] using this
  | setfi bt a b v =>
    obtain ⟨ws, rfl, l, _⟩ := h
    refine State.Inv.withResponse (State.Inv.setBank hs _ ?_) _
    have := hs.bank_ok (b := bt.toNat) hw.1
    simpa [Bank.Ok, l] using this
  | getf bt bo a b =>
    obtain ⟨tmp, rfl, l, _⟩ := h
    refine State.Inv.withResponse (State.Inv.setBank hs _ ?_) _
    have h1 := hs.bank_ok (b := bo.toNat) (hw.2 _ rfl)
    have h2 := hs.bank_ok (b := bt.toNat) hw.1
    have h3 := h2.bitlen_le
    simp only [errorOf] at hn
    split_ifs at hn
    rename_i e1 e2 e3
    have e3' : ¬ (s.bank bt.toNat).bitlen.toNat < a.toNat + b.toNat := e3
    refine ⟨by simp, ?_, ?_, ?_⟩
    · have : (s.bank bt.toNat).words.length = s.cfg.wmax := h2.2.2.2
      simp only [wordsFor]
      omega
    · simp only [wordsFor]
      omega
    · rw [State.overlay_length]
      exact h1.2.2.2
  | getfi bt a b => obtain ⟨r, rfl, _⟩ := h; exact State.Inv.withResponse hs _
  | hex bt => cases h; exact State.Inv.withResponse hs _

/-- A command keeps the invariants. -/
theorem State.Inv.exec {s t : State} {i : Instr} (hs : s.Inv) (h : exec i s = .next t) : t.Inv := by
  rcases exec_cases hs h with ⟨st, d, _, rfl⟩ | ⟨hn, he⟩
  · exact hs.withResponse _
  · exact hs.effect hn he

end Sys2Proof.Machine
end

