-- ==== Sys2Proof/Laws/Encoding.lean ====
section
/-! SUPPORT. The fields of an encoded command word, and a command word from its fields (spec/30_encoding.md R50). -/

namespace Sys2Proof

theorem Opcode.ofCode?_code (o : Opcode) : Opcode.ofCode? o.code = some o := by cases o <;> rfl

/-- An opcode number spells a command only if it is that command's (R54). -/
theorem Opcode.ofCode?_eq {n : BitVec 8} {o : Opcode} (h : Opcode.ofCode? n = some o) : n = o.code := by
  unfold Opcode.ofCode? at h
  split_ifs at h <;> cases h <;> assumption

/-- The reserved opcodes are 0x00 and 0x0A to 0xFF (R56). -/
theorem Opcode.ofCode?_eq_none {n : BitVec 8} : Opcode.ofCode? n = none ↔ n.toNat = 0 ∨ 9 < n.toNat := by
  revert n; decide

theorem encodeCw_op (o : Opcode) (bt bo : BankIx) : (encodeCw o bt bo).extractLsb' 0 8 = o.code := by
  revert bt bo; cases o <;> decide

theorem encodeCw_bt (o : Opcode) (bt bo : BankIx) : (encodeCw o bt bo).extractLsb' 8 4 = bt := by
  revert bt bo; cases o <;> decide

theorem encodeCw_bo (o : Opcode) (bt bo : BankIx) : (encodeCw o bt bo).extractLsb' 12 4 = bo := by
  revert bt bo; cases o <;> decide

theorem encodeCw_rsv (o : Opcode) (bt bo : BankIx) : (encodeCw o bt bo).extractLsb' 16 16 = 0 := by
  revert bt bo; cases o <;> decide

/-- A command word is its four fields (R50). -/
theorem cw_eq_fields (w : CmdWord) :
    w = w.extractLsb' 16 16 ++ w.extractLsb' 12 4 ++ w.extractLsb' 8 4 ++ w.extractLsb' 0 8 := by
  apply BitVec.eq_of_getLsbD_eq
  intro i hi
  simp only [BitVec.getLsbD_append, BitVec.getLsbD_extractLsb']
  by_cases h1 : i < 8
  · simp [h1]
  · by_cases h2 : i < 12
    · simp [h1, show i - 8 < 4 by omega, show 8 + (i - 8) = i by omega]
    · by_cases h3 : i < 16
      · simp [h1, show ¬ i - 8 < 4 by omega, show i - 8 - 4 < 4 by omega, show 12 + (i - 8 - 4) = i by omega]
      · simp [h1, show ¬ i - 8 < 4 by omega, show ¬ i - 8 - 4 < 4 by omega, show i - 8 - 4 - 4 < 16 by omega,
          show 16 + (i - 8 - 4 - 4) = i by omega]

/-- Two command words with the same fields are equal. -/
theorem cw_ext {w w' : CmdWord} (h1 : w.extractLsb' 0 8 = w'.extractLsb' 0 8) (h2 : w.extractLsb' 8 4 = w'.extractLsb' 8 4)
    (h3 : w.extractLsb' 12 4 = w'.extractLsb' 12 4) (h4 : w.extractLsb' 16 16 = w'.extractLsb' 16 16) : w = w' := by
  rw [cw_eq_fields w, cw_eq_fields w', h1, h2, h3, h4]

theorem extractLsb'_and (x y : CmdWord) (lo len : Nat) :
    (x &&& y).extractLsb' lo len = x.extractLsb' lo len &&& y.extractLsb' lo len := by
  apply BitVec.eq_of_getLsbD_eq
  intro i hi
  simp [hi]

/-- The fixed bits of an opcode-table row are its reserved field, its opcode number and, where it does not use `bo`, a
zero `bo` (R54). -/
theorem and_mask_eq_pattern (w : CmdWord) (o : Opcode) :
    w &&& o.mask = o.pattern ↔
      w.extractLsb' 16 16 = 0 ∧ w.extractLsb' 0 8 = o.code ∧ (o.usesBo = false → w.extractLsb' 12 4 = 0) := by
  have m1 : o.mask.extractLsb' 16 16 = BitVec.allOnes 16 := by cases o <;> decide
  have m2 : o.mask.extractLsb' 0 8 = BitVec.allOnes 8 := by cases o <;> decide
  have m3 : o.mask.extractLsb' 8 4 = 0 := by cases o <;> decide
  have m4 : o.mask.extractLsb' 12 4 = if o.usesBo then 0 else BitVec.allOnes 4 := by cases o <;> decide
  have p1 : o.pattern.extractLsb' 16 16 = 0 := by cases o <;> decide
  have p2 : o.pattern.extractLsb' 0 8 = o.code := by cases o <;> decide
  have p3 : o.pattern.extractLsb' 8 4 = 0 := by cases o <;> decide
  have p4 : o.pattern.extractLsb' 12 4 = 0 := by cases o <;> decide
  constructor
  · intro h
    have field : ∀ lo len, w.extractLsb' lo len &&& o.mask.extractLsb' lo len = o.pattern.extractLsb' lo len := by
      intro lo len
      rw [← extractLsb'_and, h]
    refine ⟨?_, ?_, fun hu => ?_⟩
    · simpa only [m1, p1, BitVec.and_allOnes] using field 16 16
    · simpa only [m2, p2, BitVec.and_allOnes] using field 0 8
    · simpa only [m4, p4, hu, Bool.false_eq_true, if_false, BitVec.and_allOnes] using field 12 4
  · rintro ⟨h1, h2, h3⟩
    apply cw_ext <;> rw [extractLsb'_and]
    · rw [m2, p2, BitVec.and_allOnes, h2]
    · rw [m3, p3]; simp
    · rw [m4, p4]
      cases hu : o.usesBo
      · rw [h3 hu]; simp
      · simp
    · rw [m1, p1, BitVec.and_allOnes, h1]

theorem Opcode.build_opcode (o : Opcode) (c : Command) : (o.build c).opcode = o := by cases o <;> rfl

/-- What the decoder accepts: the conditions of R55 steps 1 to 4, and the operands of R51. -/
theorem decode_eq_ok {cfg : Config} {c : Command} {i : Instr} :
    decode cfg c = .ok i ↔
      c.rsv = 0 ∧ ∃ o : Opcode, c.op = o.code ∧ (o.usesBo = false → c.bo = 0) ∧ c.bt.toNat < cfg.nbanks ∧
        (o.usesBo = true → c.bo.toNat < cfg.nbanks) ∧ i = o.build c := by
  unfold decode
  constructor
  · intro h
    split_ifs at h with h1
    split at h
    · cases h
    · rename_i o ho
      split_ifs at h with h2 h3
      refine ⟨by simpa using h1, o, Opcode.ofCode?_eq ho, fun hu => ?_, by omega, fun hu => ?_, by cases h; rfl⟩
      · by_contra hc
        exact h2 ⟨hu, hc⟩
      · by_contra hc
        exact h3 (.inr ⟨hu, by omega⟩)
  · rintro ⟨h1, o, h2, h3, h4, h5, rfl⟩
    rw [if_neg (by simp [h1]), h2, Opcode.ofCode?_code]
    dsimp only
    rw [if_neg (by rintro ⟨a, b⟩; exact b (h3 a)), if_neg]
    rintro (h | ⟨a, b⟩)
    · omega
    · have := h5 a
      omega

end Sys2Proof
end

