-- ==== Sys2Proof/Laws/Hex.lean ====
section
/-! SUPPORT. The hex stream (spec/44_hex_render.md R83, R84). -/

namespace Sys2Proof.Machine

@[simp] theorem hexWord_length (w : Word) : (hexWord w).length = 16 := by simp [hexWord]

/-- Digit `15 - d` of a word is the digit of its bits `4d + 3` to `4d` (R83). -/
theorem hexWord_getElem? (w : Word) {d : Nat} (h : d < 16) :
    (hexWord w)[15 - d]? = some (hexChar (w.extractLsb' (4 * d) 4)) := by
  unfold hexWord
  rw [List.getElem?_map, List.getElem?_reverse (by simp [Config.hexDigitsPerWord]; omega)]
  simp only [List.length_range, Config.hexDigitsPerWord]
  rw [List.getElem?_range (by omega)]
  simp only [Option.map_some]
  rw [show 16 - 1 - (15 - d) = d by omega]

/-- Every character is a lowercase hexadecimal digit (R85 (b)). -/
theorem hexChar_range (n : BitVec 4) :
    (0x30 ≤ (hexChar n).toNat ∧ (hexChar n).toNat ≤ 0x39) ∨ (0x61 ≤ (hexChar n).toNat ∧ (hexChar n).toNat ≤ 0x66) := by
  revert n; decide

/-- The digit a character stands for (R84). -/
theorem hexChar_value (n : BitVec 4) :
    (if (hexChar n).toNat < 0x3A then (hexChar n).toNat - 0x30 else (hexChar n).toNat - 0x61 + 10) = n.toNat := by
  revert n; decide

namespace State

/-- One more word goes in front (R83: descending word order). -/
theorem hexString_succ (s : State) (b n : Nat) : s.hexString b (n + 1) = hexWord (s.word b n) ++ s.hexString b n := by
  simp [hexString, List.range_succ]

@[simp] theorem hexString_length (s : State) (b n : Nat) : (s.hexString b n).length = 16 * n := by
  induction n with
  | zero => rfl
  | succ n ih => rw [hexString_succ, List.length_append, ih, hexWord_length]; omega

/-- The sixteen characters of word `k` (R85 (c)). -/
theorem hexString_word (s : State) (b : Nat) : ∀ {n k : Nat}, k < n →
    ((s.hexString b n).drop (16 * (n - 1 - k))).take 16 = hexWord (s.word b k)
  | 0, _, h => absurd h (by omega)
  | n + 1, k, h => by
    rw [hexString_succ]
    by_cases e : k = n
    · subst e
      simp
    · rw [show 16 * (n + 1 - 1 - k) = 16 + 16 * (n - 1 - k) by omega, ← List.drop_drop,
        List.drop_left' (hexWord_length _)]
      exact hexString_word s b (by omega)

end State

end Sys2Proof.Machine
end

