-- ==== Sys2Proof/Laws/PerInstr.lean ====
section
/-! SUPPORT. The family EncodedFields: the fields of the command word an instruction is encoded to are its opcode number, its
banks and zeros (spec/30_encoding.md R50, R54, R57). -/

namespace Sys2Proof.Laws.EncodedFields

/-- `op`, `bt`, `bo` (0 where unused) and the reserved field of the encoded command word. -/
def Statement (i : Instr) : Prop :=
  (encode i).op = i.opcode.code ∧ (encode i).bt = i.bt ∧ (encode i).bo = i.bo?.getD 0 ∧ (encode i).rsv = 0

/-- The fields of `encodeCw`. -/
theorem of_encodeCw (o : Opcode) (bt bo : BankIx) (a b v : Word) :
    (Command.mk (encodeCw o bt bo) a b v).op = o.code ∧ (Command.mk (encodeCw o bt bo) a b v).bt = bt ∧
      (Command.mk (encodeCw o bt bo) a b v).bo = bo ∧ (Command.mk (encodeCw o bt bo) a b v).rsv = 0 :=
  ⟨encodeCw_op o bt bo, encodeCw_bt o bt bo, encodeCw_bo o bt bo, encodeCw_rsv o bt bo⟩

theorem ldw (bt : BankIx) (a v : Word) : Statement (.ldw bt a v) := of_encodeCw _ _ _ _ _ _
theorem new (bt : BankIx) (a b : Word) : Statement (.new bt a b) := of_encodeCw _ _ _ _ _ _
theorem free (bt : BankIx) : Statement (.free bt) := of_encodeCw _ _ _ _ _ _
theorem len (bt : BankIx) : Statement (.len bt) := of_encodeCw _ _ _ _ _ _
theorem setf (bt bo : BankIx) (a : Word) : Statement (.setf bt bo a) := of_encodeCw _ _ _ _ _ _
theorem setfi (bt : BankIx) (a b v : Word) : Statement (.setfi bt a b v) := of_encodeCw _ _ _ _ _ _
theorem getf (bt bo : BankIx) (a b : Word) : Statement (.getf bt bo a b) := of_encodeCw _ _ _ _ _ _
theorem getfi (bt : BankIx) (a b : Word) : Statement (.getfi bt a b) := of_encodeCw _ _ _ _ _ _
theorem hex (bt : BankIx) : Statement (.hex bt) := of_encodeCw _ _ _ _ _ _

end Sys2Proof.Laws.EncodedFields
end

