-- ==== Sys2Proof/Laws/Step.lean ====
section
/-! SUPPORT. Everything a step can do, once (spec/20_memory.md R42; spec/70_reset_and_hazards.md R107 to R109). -/

namespace Sys2Proof.Machine

/-- Running a command, legal or not, answers one response, and differs only in the banks and the response port. -/
theorem runCommand_answers (c : Command) (s : State) :
    ∃ t r, runCommand c s = .next (t.withResponse r) ∧ OnlyBanks s t ∧ (r.status ≠ .ok → t = s ∧ r.bytes = []) := by
  unfold runCommand
  split
  · exact exec_answers _ s
  · exact ⟨s, _, rfl, .refl s, fun _ => ⟨rfl, rfl⟩⟩

/-- A command the unit is ready for is taken and run. -/
theorem step_command {s : State} {c : Command} {rest : List HostInput} (hp : s.pending = none)
    (hi : s.inputs = .command c :: rest) : step s = runCommand c { s with inputs := rest } := by
  simp [step, State.nextInput, hi, State.cmdReady, hp, State.consume]

/-- The inversion of `step`: nothing can happen yet; a command is run; a hex byte is taken; a response is taken; reset. -/
theorem step_cases {s t : State} (h : step s = .next t) :
    t = s ∨
    (∃ c rest, s.pending = none ∧ s.inputs = .command c :: rest ∧
      runCommand c { s with inputs := rest } = .next t) ∨
    (∃ p rest, s.pending = some p ∧ s.inputs = .takeByte :: rest ∧ p.bytesTaken < p.response.bytes.length ∧
      t = { s with pending := some { p with bytesTaken := p.bytesTaken + 1 }, inputs := rest }) ∨
    (∃ p rest, s.pending = some p ∧ s.inputs = .take :: rest ∧
      t = { s with pending := none, inputs := rest, responses := s.responses ++ [p.response] }) ∨
    ∃ rest, s.inputs = .reset :: rest ∧ t = { s with inputs := rest }.assertReset := by
  cases hi : s.inputs with
  | nil =>
    simp only [step, State.nextInput, hi] at h
    cases h
    exact .inl rfl
  | cons x rest =>
    cases x with
    | command c =>
      cases hp : s.pending with
      | none =>
        rw [step_command hp hi] at h
        exact .inr (.inl ⟨c, rest, rfl, rfl, by rw [hp] at h; exact h⟩)
      | some p =>
        simp [step, State.nextInput, hi, State.cmdReady, hp] at h
        exact .inl h.symm
    | takeByte =>
      cases hp : s.pending with
      | none =>
        simp [step, State.nextInput, hi, State.hexByte?, hp] at h
        exact .inl h.symm
      | some p =>
        by_cases hl : p.bytesTaken < p.response.bytes.length
        · simp [step, State.nextInput, hi, State.hexByte?, hp, Pending.bytesLeft, hl, State.consume, State.takeByte] at h
          exact .inr (.inr (.inl ⟨p, rest, rfl, rfl, hl, h.symm⟩))
        · simp [step, State.nextInput, hi, State.hexByte?, hp, Pending.bytesLeft, hl] at h
          exact .inl h.symm
    | take =>
      cases hp : s.pending with
      | none =>
        simp [step, State.nextInput, hi, State.cmdReady, hp] at h
        exact .inl h.symm
      | some p =>
        simp [step, State.nextInput, hi, State.cmdReady, hp, State.consume, State.takeResponse] at h
        exact .inr (.inr (.inr (.inl ⟨p, rest, rfl, rfl, h.symm⟩)))
    | reset =>
      simp [step, State.nextInput, hi, State.consume] at h
      exact .inr (.inr (.inr (.inr ⟨rest, rfl, h.symm⟩)))

end Sys2Proof.Machine
end

