-- ==== Sys2Proof/Tests/Slice0.lean ====
section
/-! SUPPORT. Tests. Expected values are those of spec/95_test_vectors.md (the section is named at each test) or of the
rule named. Then a witness for the hypotheses of every obligation that has some, one for each clause. -/

namespace Sys2Proof.Tests

open Sys2Proof.Machine Sys2Proof.Claims

/-! ## Helpers -/

/-- A state of the banks given, with word arrays of `wmax` words. -/
def small (wmax : Nat) (banks : List Bank) : State := { State.reset with cfg := ⟨banks.length, wmax⟩, banks := banks }

/-- A bank that holds an instance over all of its words. -/
def inst (bitlen : Word) (words : List Word) : Bank := ⟨true, bitlen, words.length, words⟩

/-- The word with every bit set. -/
def ones : Word := 0xFFFFFFFFFFFFFFFF

/-- The instance of spec/95, "scenario instance". -/
def scenario : Bank := inst 128 [0x123456789ABCDEF0, 0x0FEDCBA987654321]

/-- The response of a result. -/
def response (o : Result) : Option Response :=
  match o with
  | .next t => t.pending.map (·.response)
  | .fault _ => none
  | .refused _ => none

/-- Bank `b` of a result. -/
def bankOf (b : Nat) (o : Result) : Option Bank :=
  match o with
  | .next t => t.banks[b]?
  | .fault _ => none
  | .refused _ => none

/-- The state of spec/95 section 2.7. -/
def decodeState : State := small 1 [inst 40 [0xFFFFFFFF], ⟨false, 0, 0, [0]⟩, ⟨false, 0, 0, [0]⟩, ⟨false, 0, 0, [0]⟩]

/-- Whether a command word alone (operands 0) is answered `ILLEGAL_COMMAND 0`. -/
def illegal (cw : CmdWord) : Bool :=
  response (step { decodeState with inputs := [.command ⟨cw, 0, 0, 0⟩] }) == some ⟨.illegalCommand, 0, []⟩

/-! ## Well-formedness (R55 step 4, R58) -/

theorem test_wf_absent_this_bank : ¬ (Instr.len 4).WellFormed Config.bfu := by decide
theorem test_wf_absent_other_bank : ¬ (Instr.setf 0 4 0).WellFormed Config.bfu := by decide
theorem test_wf_absent_receiving_bank : ¬ (Instr.getf 3 15 0 0).WellFormed Config.bfu := by decide
theorem test_wf_highest_banks : (Instr.getf 3 3 0 0).WellFormed Config.bfu := by decide

/-! ## Decoding: each command word written out from R50 and R54 (`op` 7:0, `bt` 11:8, `bo` 15:12) -/

theorem test_decode_ldw : decode Config.bfu ⟨0b0000000000000000_0000_0011_00000001, 5, 6, 7⟩ = .ok (.ldw 3 5 7) := by decide
theorem test_decode_new : decode Config.bfu ⟨0b0000000000000000_0000_0010_00000010, 5, 6, 7⟩ = .ok (.new 2 5 6) := by decide
theorem test_decode_free : decode Config.bfu ⟨0b0000000000000000_0000_0001_00000011, 5, 6, 7⟩ = .ok (.free 1) := by decide
theorem test_decode_len : decode Config.bfu ⟨0b0000000000000000_0000_0011_00000100, 5, 6, 7⟩ = .ok (.len 3) := by decide
theorem test_decode_setf : decode Config.bfu ⟨0b0000000000000000_0001_0010_00000101, 5, 6, 7⟩ = .ok (.setf 2 1 5) := by decide
theorem test_decode_setfi : decode Config.bfu ⟨0b0000000000000000_0000_0001_00000110, 5, 6, 7⟩ = .ok (.setfi 1 5 6 7) := by decide
theorem test_decode_getf : decode Config.bfu ⟨0b0000000000000000_0011_0001_00000111, 5, 6, 7⟩ = .ok (.getf 1 3 5 6) := by decide
theorem test_decode_getfi : decode Config.bfu ⟨0b0000000000000000_0000_0010_00001000, 5, 6, 7⟩ = .ok (.getfi 2 5 6) := by decide
theorem test_decode_hex : decode Config.bfu ⟨0b0000000000000000_0000_0011_00001001, 5, 6, 7⟩ = .ok (.hex 3) := by decide

/-- Section 2.7: every `ILLEGAL_COMMAND` row. -/
theorem test_decode_illegal : ([0x00000000, 0x0000000A, 0x000000FF, 0x00010004, 0x80000004, 0x00001001, 0x00001002, 0x00001003,
    0x00001004, 0x00001006, 0x00001008, 0x00001009, 0x00000404, 0x00000F04, 0x00000405, 0x00004005, 0x00004007,
    0x00003304] : List CmdWord).all illegal = true := by decide

/-- Section 2.7: the rows that are legal. -/
theorem test_decode_legal : ([0x00000104, 0x00000004, 0x00003007] : List CmdWord).any illegal = false := by decide

/-- The encoding line of R78: `GETF k1, k0` is `CW = 0x00001007`. -/
theorem test_encode_getf : (encode (.getf 0 1 4 8)).cw = 0x00001007 := by decide

/-- Log 7's numbering: `CW` lowest, then `A`, `B`, `V`. -/
theorem test_table_word : decodeTableWord 224 (7 * 2 ^ 160 + 6 * 2 ^ 96 + 5 * 2 ^ 32 + 0x106) = some (.setfi 1 5 6 7) := by decide

theorem test_table_word_illegal : decodeTableWord 32 0x404 = none := by decide

/-- A step runs the command presented (section 2.1, row 24): `NEW k0, 5, 17` on `WMAX = 16`. -/
theorem test_step_fetch : response (step (State.reset.withFetchWord 224 (17 * 2 ^ 96 + 5 * 2 ^ 32 + 2))) =
    some ⟨.limitError, 16, []⟩ := by decide

/-! ## The commands -/

/-- Section 2.1, row 1. -/
theorem test_ldw : bankOf 0 (exec (.ldw 0 0 0x11) (small 2 [⟨false, 0, 0, [0x55, 0x55]⟩])) =
    some ⟨false, 0, 0, [0x11, 0x55]⟩ := by decide

/-- Section 2.1, row 3: `LIMIT_ERROR 0x10`. -/
theorem test_ldw_limit : response (exec (.ldw 0 16 0x33) State.reset) = some ⟨.limitError, 0x10, []⟩ := by decide

/-- Section 2.1, row 17: backing words beyond the length. -/
theorem test_new : bankOf 0 (exec (.new 0 0 3) (small 3 [⟨false, 0, 0, [1, 2, 3]⟩])) = some ⟨true, 0, 3, [1, 2, 3]⟩ := by decide

/-- Section 2.1, row 23: `CAPACITY_ERROR 0x40`. -/
theorem test_new_capacity : response (exec (.new 0 65 1) State.reset) = some ⟨.capacityError, 0x40, []⟩ := by decide

/-- Section 2.1, row 14: the words are kept. -/
theorem test_free : bankOf 0 (exec (.free 0) (small 1 [inst 0 [0x11]])) = some ⟨false, 0, 0, [0x11]⟩ := by decide

/-- Section 2.1, row 32: the logical length, not 128. -/
theorem test_len : response (exec (.len 0) (small 2 [inst 100 [0, 0]])) = some ⟨.ok, 0x64, []⟩ := by decide

/-- Section 2.2, row 1: a field over a word boundary. -/
theorem test_setf : (bankOf 0 (exec (.setf 0 1 60) (small 2 [scenario, inst 8 [0xEF, 0]]))).map (·.words) =
    some [0xF23456789ABCDEF0, 0x0FEDCBA98765432E] := by decide

/-- Section 2.2: a field that does not fit is not cut. -/
theorem test_setf_range : response (exec (.setf 0 1 121) (small 2 [inst 128 [ones, ones], inst 8 [0xFFFFFFFFFFFFFF00, 0]])) =
    some ⟨.rangeError, 0x80, []⟩ := by decide

/-- Section 2.3, row 2: a length above 64 writes zeros above bit 63 of the value. -/
theorem test_setfi_long : (bankOf 0 (exec (.setfi 0 0 70 ones) (small 2 [inst 128 [ones, ones]]))).map (·.words) =
    some [0xFFFFFFFFFFFFFFFF, 0xFFFFFFFFFFFFFFC0] := by decide

/-- Section 2.3, row 7: bit offsets 31 and 32. -/
theorem test_setfi : (bankOf 0 (exec (.setfi 0 31 2 0) (small 2 [inst 128 [ones, ones]]))).map (·.words) =
    some [0xFFFFFFFE7FFFFFFF, 0xFFFFFFFFFFFFFFFF] := by decide

/-- Section 2.5, the row of source bit 99: result bit 96, `i % 64 = 32`. -/
theorem test_getf_shift : bankOf 1 (exec (.getf 0 1 3 100) (small 2 [inst 128 [0, 0x0000000800000000], ⟨false, 0, 0, [1, 1]⟩])) =
    some ⟨true, 100, 2, [0, 0x0000000100000000]⟩ := by decide

/-- Section 2.5: the receiving bank in use, the residual word kept. -/
theorem test_getf_residual : bankOf 1 (exec (.getf 0 1 4 8) (small 2 [scenario, inst 128 [0x1111111111111111, 0x2222222222222222]])) =
    some ⟨true, 8, 1, [0xEF, 0x2222222222222222]⟩ := by decide

/-- Section 2.4: 64 bits across the boundary. -/
theorem test_getfi : response (exec (.getfi 0 1 64) (small 2 [scenario])) = some ⟨.ok, 0x891A2B3C4D5E6F78, []⟩ := by decide

/-- Section 2.4: the sum does not wrap. -/
theorem test_getfi_range : response (exec (.getfi 0 0xFFFFFFFFFFFFFFFF 2) (small 2 [scenario])) =
    some ⟨.rangeError, 0x80, []⟩ := by decide

/-- Section 2.6: the bytes of the string `00000000000000ef`. -/
theorem test_hex : response (exec (.hex 0) (small 1 [inst 8 [0xEF]])) = some ⟨.ok, 0,
    [0x30, 0x30, 0x30, 0x30, 0x30, 0x30, 0x30, 0x30, 0x30, 0x30, 0x30, 0x30, 0x30, 0x30, 0x65, 0x66]⟩ := by decide

/-- Section 1, S1: the first and the last byte of the scenario's string, word 1 first. -/
theorem test_hex_order : (response (exec (.hex 0) (small 2 [scenario]))).map (fun r => (r.bytes.length, r.bytes.take 3, r.bytes.drop 29)) =
    some (32, [0x30, 0x66, 0x65], [0x65, 0x66, 0x30]) := by decide

/-! ## Text (R61, R62) -/

theorem test_text_hexadecimal : Asm.readLine ("LDW   k0, 1, 0x0F_ED    ; words[0][1]".toList) = some [.ldw 0 1 0x0FED] := by decide

/-- GETF names the receiving bank first. -/
theorem test_text_getf : Asm.readLine ("GETF k1, k0, 4, 8".toList) = some [.getf 0 1 4 8] := by decide

theorem test_create_empty : create 2 0 [] = [.free 2, .new 2 0 0] := by decide

/-! ## Witnesses -/

/-- Bank 0 a 100-bit instance over two words with padding, bank 1 an 8-bit one with padding and a residual word, bank 2
free. -/
def demo : State := small 2 [inst 100 [0x123456789ABCDEF0, 0x0FEDCBA987654321], ⟨true, 8, 1, [0xFFFFFFFFFFFFFFEF, 0x22]⟩,
  ⟨false, 0, 0, [0x55, 0x66]⟩]

/-- `demo` with inputs. -/
def demoIn (is : List HostInput) : State := { demo with inputs := is }

/-- A response of two bytes, `n` of them taken. -/
def twoBytes (n : Nat) : Pending := ⟨⟨.ok, 0, [0x65, 0x66]⟩, n⟩

/-- `demo` with such a response pending, and inputs. -/
def busy (n : Nat) (is : List HostInput) : State := { demoIn is with pending := some (twoBytes n) }

theorem demo_inv : demo.Inv := by decide
theorem busy_inv : (busy 2 [.take]).Inv := by decide
theorem reset_inv : State.reset.Inv := by decide

theorem witness_DecodeEncodeRoundTrip : (Instr.setf 15 0 1).WellFormed ⟨16, 1⟩ ∧ (Instr.hex 1).WellFormed ⟨2, 1⟩ := by decide

theorem witness_DecodesExactlyTheOpcodeMap : decode ⟨16, 1⟩ ⟨0x0000FF05, 1, 2, 3⟩ = .ok (.setf 15 15 1) := by decide

/-- One command word for each way to be illegal, on 3 banks. -/
theorem witness_IllegalWordsAreRefused : (demoIn [.command ⟨0x00010004, 0, 0, 0⟩]).pending = none ∧
    (0x00010004 : CmdWord).extractLsb' 16 16 ≠ 0 ∧ ((0x00000100 : CmdWord).extractLsb' 0 8).toNat = 0 ∧
    9 < ((0x0000000A : CmdWord).extractLsb' 0 8).toNat ∧
    ((0x00001004 : CmdWord).extractLsb' 0 8 ≠ 5 ∧ (0x00001004 : CmdWord).extractLsb' 0 8 ≠ 7 ∧
      (0x00001004 : CmdWord).extractLsb' 12 4 ≠ 0) ∧
    demo.cfg.nbanks ≤ ((0x00000304 : CmdWord).extractLsb' 8 4).toNat ∧
    ((0x00003007 : CmdWord).extractLsb' 0 8 = 7 ∧ demo.cfg.nbanks ≤ ((0x00003007 : CmdWord).extractLsb' 12 4).toNat) := by decide

/-- For every opcode number, two commands that agree on the operands used and differ on the others; and a word that spells
no command. -/
theorem witness_UnusedOperandsHaveNoEffect :
    AgreeOnUsedOperands 1 ⟨1, 5, 6, 7⟩ ⟨1, 5, 0, 7⟩ ∧ AgreeOnUsedOperands 2 ⟨2, 5, 6, 7⟩ ⟨2, 5, 6, 0⟩ ∧
      AgreeOnUsedOperands 3 ⟨3, 5, 6, 7⟩ ⟨3, 0, 0, 0⟩ ∧ AgreeOnUsedOperands 4 ⟨4, 5, 6, 7⟩ ⟨4, 0, 0, 0⟩ ∧
      AgreeOnUsedOperands 5 ⟨5, 5, 6, 7⟩ ⟨5, 5, 0, 0⟩ ∧ AgreeOnUsedOperands 6 ⟨6, 5, 6, 7⟩ ⟨6, 5, 6, 7⟩ ∧
      AgreeOnUsedOperands 7 ⟨7, 5, 6, 7⟩ ⟨7, 5, 6, 0⟩ ∧ AgreeOnUsedOperands 8 ⟨8, 5, 6, 7⟩ ⟨8, 5, 6, 0⟩ ∧
      AgreeOnUsedOperands 9 ⟨9, 5, 6, 7⟩ ⟨9, 0, 0, 0⟩ := by
  simp [AgreeOnUsedOperands]

theorem witness_UnusedOperandsHaveNoEffect_illegal : demo.pending = none ∧
    decode demo.cfg ⟨0, 5, 6, 7⟩ = .error .reservedOpcode := by decide

theorem witness_StepRunsDecodedCommand : (demoIn [.command ⟨0x0204, 1, 2, 3⟩]).pending = none ∧
    decode demo.cfg ⟨0x0204, 1, 2, 3⟩ = .ok (.len 2) := by decide

/-- A command that is taken; a response taken; and a response that stays while a byte of it is taken. -/
theorem witness_OneResponsePerCommandInOrder :
    (∃ t, step (demoIn [.command ⟨0x0004, 0, 0, 0⟩]) = .next t ∧ t.pending ≠ none) ∧
      (∃ t, step (busy 0 [.take]) = .next t ∧ t.pending = none ∧ t.responses ≠ []) ∧
      ∃ t, step (busy 0 [.takeByte]) = .next t ∧ t.pending = some (twoBytes 1) :=
  ⟨⟨_, rfl, by decide⟩, ⟨_, rfl, by decide⟩, ⟨_, rfl, by decide⟩⟩

theorem witness_CommandWaitsForResponse : (busy 2 [.command ⟨4, 0, 0, 0⟩]).pending = some (twoBytes 2) := by decide

/-- The last byte, no byte left, and the response. -/
theorem witness_HostTakesBytesThenResponse : (busy 1 [.takeByte]).pending = some (twoBytes 1) ∧
    (twoBytes 1).bytesTaken < (twoBytes 1).response.bytes.length ∧
    (twoBytes 2).response.bytes.length ≤ (twoBytes 2).bytesTaken ∧ (busy 2 [.take]).pending = some (twoBytes 2) := by decide

theorem witness_BanksChangeOnlyByCommandOrReset :
    (∃ t, step (demoIn [.command ⟨0x0003, 0, 0, 0⟩]) = .next t ∧ t.banks ≠ demo.banks) ∧
      ∃ t, step (busy 0 [.takeByte]) = .next t ∧ t.banks = demo.banks := ⟨⟨_, rfl, by decide⟩, ⟨_, rfl, by decide⟩⟩

theorem witness_AfterResetEveryBankIsFree : 15 < (Config.mk 16 1).nbanks ∧ 0 < (Config.mk 2 1).nbanks := by decide

theorem witness_ResetMeetsInvariants : (Config.mk 2 1).Ok ∧ (Config.mk 16 4294967296).Ok := by decide

theorem witness_AssertedResetFreesBanksAndCancels : (busy 1 [.reset]).inputs = [.reset] ∧ 2 < (busy 1 [.reset]).cfg.nbanks := by decide

theorem witness_StepKeepsInvariants : (demoIn [.command ⟨0x0003, 0, 0, 0⟩]).Inv ∧
    ∃ t, step (demoIn [.command ⟨0x0003, 0, 0, 0⟩]) = .next t ∧ t.valid 0 = false := ⟨by decide, _, rfl, by decide⟩

/-- A field that ends at the last bit, of 64 bits, of more, and of the length of another bank's instance. -/
theorem witness_IndexErrorNeverOccurs : 36 + 64 ≤ (demo.bitlen 0).toNat ∧ 0 + 100 ≤ (demo.bitlen 0).toNat ∧
    92 + (demo.bitlen 1).toNat ≤ (demo.bitlen 0).toNat ∧ ([0, 0] : List Word).length = (100 + 63) / 64 := by decide

theorem witness_SizeIsImmutable : demo.valid 0 = true ∧
    ∃ t, step (demoIn [.command ⟨0x0007, 0, 5, 0⟩]) = .next t ∧ t.bitlen 0 = 5 := ⟨by decide, _, rfl, by decide⟩

theorem witness_BitPrimitives : 1 < demo.cfg.nbanks ∧ (demo.bitlen 1).toNat ≤ 8 ∧ 7 < (demo.bitlen 1).toNat := by decide

/-- 64 bits up to the last bit of a valid bank, and the empty field at the end. -/
theorem witness_MemReadIsTheFieldBits : (36 : Word).toNat + (64 : Word).toNat ≤ (demo.bitlen 0).toNat ∧
    (100 : Word).toNat + (0 : Word).toNat ≤ (demo.bitlen 0).toNat ∧ demo.valid 0 = true ∧ 0 < demo.cfg.nbanks := by decide

theorem witness_MemWriteWritesTheField : 0 + 100 ≤ (demo.bitlen 0).toNat ∧ 99 + 1 ≤ (demo.bitlen 0).toNat := by decide

theorem witness_WordLevelMemReadIsMemRead : 36 + 64 ≤ (demo.bitlen 0).toNat ∧ 99 + 1 ≤ (demo.bitlen 0).toNat ∧
    64 < 36 % 64 + 64 := by decide

theorem witness_WordLevelMemWriteIsMemWrite : 99 + 1 ≤ (demo.bitlen 0).toNat ∧ 36 + 64 ≤ (demo.bitlen 0).toNat ∧
    35 + 65 ≤ (demo.bitlen 0).toNat := by decide

theorem witness_AbsentBankIsIllegal : ¬ (Instr.len 3).WellFormed demo.cfg ∧ ¬ (Instr.setf 0 3 0).WellFormed demo.cfg ∧
    ¬ (Instr.getf 2 15 0 0).WellFormed demo.cfg := by decide

/-- LDW: on a valid bank; with the first index outside the array; with the last one inside. -/
theorem witness_LdwWritesOneWord : demo.valid 1 = true ∧ demo.valid 2 = false ∧ demo.cfg.wmax ≤ (2 : Word).toNat ∧
    (1 : Word).toNat < demo.cfg.wmax := by decide

/-- NEW: on a valid bank; a word too many; a bit too many; exactly full. -/
theorem witness_NewConstructsOverTheWords : demo.valid 1 = true ∧ demo.valid 2 = false ∧ demo.cfg.wmax < (3 : Word).toNat ∧
    (2 : Word).toNat ≤ demo.cfg.wmax ∧ (2 : Word).toNat * 64 < (129 : Word).toNat ∧
    (128 : Word).toNat ≤ (2 : Word).toNat * 64 := by decide

theorem witness_FreeReleasesTheBank : 2 < demo.cfg.nbanks ∧ demo.valid 2 = false := by decide

theorem witness_LenReturnsBitLength : demo.valid 2 = false ∧ demo.valid 0 = true := by decide

/-- SETF of the 8-bit bank 1 into the 100-bit bank 0: one bit too far, and up to the last bit. -/
theorem witness_SetfCopiesTheField : demo.valid 2 = false ∧ demo.valid 0 = true ∧ demo.valid 1 = true ∧
    (demo.bitlen 0).toNat < (93 : Word).toNat + (demo.bitlen 1).toNat ∧
    (92 : Word).toNat + (demo.bitlen 1).toNat ≤ (demo.bitlen 0).toNat := by decide

theorem witness_SetfOfABankIntoItself : demo.valid 0 = true ∧ (1 : Word) ≠ 0 := by decide

theorem witness_SetfiWritesTheValue : demo.valid 2 = false ∧ demo.valid 0 = true ∧
    (demo.bitlen 0).toNat < (36 : Word).toNat + (65 : Word).toNat ∧
    (35 : Word).toNat + (65 : Word).toNat ≤ (demo.bitlen 0).toNat := by decide

theorem witness_SetfiThenGetfiRoundTrip : ∃ t, exec (.setfi 1 4 4 0xA) demo = .next t ∧ Succeeded t 0 [] :=
  ⟨_, rfl, rfl⟩

/-- GETF of 65 bits: one bit too many, and up to the last bit. -/
theorem witness_GetfExtractsTheField : demo.valid 2 = false ∧ demo.valid 0 = true ∧
    (demo.bitlen 0).toNat < (36 : Word).toNat + (65 : Word).toNat ∧
    (35 : Word).toNat + (65 : Word).toNat ≤ (demo.bitlen 0).toNat := by decide

theorem witness_GetfiReturnsTheField : demo.valid 2 = false ∧ demo.valid 0 = true ∧ 64 < (65 : Word).toNat ∧
    (demo.bitlen 0).toNat < (37 : Word).toNat + (64 : Word).toNat ∧
    (36 : Word).toNat + (64 : Word).toNat ≤ (demo.bitlen 0).toNat := by decide

theorem witness_ExtractionConsistency : (∃ t, exec (.getf 1 2 0 8) demo = .next t ∧ Succeeded t 0 []) ∧ (2 : BankIx) ≠ 1 ∧
    (4 : Word).toNat + (4 : Word).toNat ≤ (8 : Word).toNat := ⟨⟨_, rfl, rfl⟩, by decide, by decide⟩

theorem witness_HexRendersEveryBackingWord : demo.valid 2 = false ∧ demo.valid 0 = true ∧ 1 < demo.wcount 0 := by decide

theorem witness_HexCharCodes : (9#4).toNat ≤ 9 ∧ 10 ≤ (10#4).toNat := by decide

theorem witness_HexStringLaws : (∃ bytes, Answers (.hex 1) demo ⟨.ok, 0, bytes⟩) ∧ 0 < demo.wcount 1 ∧
    (busy 0 []).bank 1 = demo.bank 1 := ⟨⟨_, rfl⟩, by decide, by decide⟩

/-- The boundary of each error, on the other side of which the command succeeds. -/
theorem witness_CapacityErrorExactly : (Instr.new 2 129 2).WellFormed demo.cfg ∧ demo.valid 2 = false ∧
    (2 : Word).toNat ≤ demo.cfg.wmax ∧ (2 : Word).toNat * 64 < (129 : Word).toNat := by decide

theorem witness_RangeErrorExactly :
    (response (exec (.setf 0 1 93) demo)).map (·.status) = some .rangeError ∧
      (response (exec (.setfi 1 8 1 0) demo)).map (·.status) = some .rangeError ∧
      (response (exec (.getf 1 2 1 8) demo)).map (·.status) = some .rangeError ∧
      (response (exec (.getfi 0 0 65) demo)).map (·.status) = some .rangeError ∧
      (response (exec (.getfi 0 101 0) demo)).map (·.status) = some .rangeError := by decide

theorem witness_NoInstanceExactly :
    (response (exec (.len 2) demo)).map (·.status) = some .noInstance ∧
      (response (exec (.setf 2 0 0) demo)).map (·.status) = some .noInstance ∧
      (response (exec (.setf 0 2 0) demo)).map (·.status) = some .noInstance ∧
      (response (exec (.setfi 2 0 0 0) demo)).map (·.status) = some .noInstance ∧
      (response (exec (.getf 2 0 0 0) demo)).map (·.status) = some .noInstance ∧
      (response (exec (.getfi 2 0 65) demo)).map (·.status) = some .noInstance ∧
      (response (exec (.hex 2) demo)).map (·.status) = some .noInstance := by decide

theorem witness_BankInUseAndLimitErrorExactly :
    (response (exec (.ldw 0 2 0) demo)).map (·.status) = some .bankInUse ∧
      (response (exec (.new 1 0 3) demo)).map (·.status) = some .bankInUse ∧
      response (exec (.ldw 2 2 0) demo) = some ⟨.limitError, 2, []⟩ ∧
      response (exec (.new 2 0 3) demo) = some ⟨.limitError, 2, []⟩ := by decide

theorem witness_ErrorsLeaveNoTrace : ∃ t, step (demoIn [.command ⟨0x0204, 0, 0, 0⟩]) = .next t ∧
    t.pending = some ⟨⟨.noInstance, 0, []⟩, 0⟩ := ⟨_, rfl, by decide⟩

theorem witness_DataAndBytesOnSuccess : (∃ t, exec (.len 0) demo = .next t ∧ t.pending = some ⟨⟨.ok, 100, []⟩, 0⟩) ∧
    ∃ t, exec (.free 0) demo = .next t ∧ t.pending = some ⟨⟨.ok, 0, []⟩, 0⟩ := ⟨⟨_, rfl, by decide⟩, ⟨_, rfl, by decide⟩⟩

theorem witness_FrameOfEveryCommand : ∃ t, exec (.setf 0 1 92) demo = .next t ∧ Succeeded t 0 [] := ⟨_, rfl, rfl⟩

/-- Two states that differ in bank 0 alone, which `SETFI k1` does not name. -/
theorem witness_BanksAreIndependent : (demo.setBank 0 ⟨false, 0, 0, [1, 2]⟩).Inv ∧
    (∀ b, namesBank (.setfi 1 0 8 0) b → demo.bank b = (demo.setBank 0 ⟨false, 0, 0, [1, 2]⟩).bank b) ∧
    demo.bank 0 ≠ (demo.setBank 0 ⟨false, 0, 0, [1, 2]⟩).bank 0 := by
  refine ⟨by decide, ?_, by decide⟩
  rintro b (rfl | ⟨bo, h, -⟩)
  · rfl
  · cases h

/-- `demo` with other padding in bank 1 and another residual word. -/
def otherPadding : State := demo.setWords 1 [0x00000000000000EF, 0x33]

/-- The two states show the same instances in every bank, those that do not exist included. -/
theorem witness_PaddingIsNeverRead : demo.Inv ∧ otherPadding.Inv ∧ (demo.bank 1).words ≠ (otherPadding.bank 1).words ∧
    SameInstances demo otherPadding ∧ (∃ t, exec (.getf 1 2 0 8) demo = .next t ∧ Succeeded t 0 []) ∧
    ∃ t, exec (.getf 1 2 0 8) otherPadding = .next t ∧ Succeeded t 0 [] := by
  refine ⟨by decide, by decide, by decide, ⟨rfl, rfl, fun b => ?_⟩, ⟨_, rfl, rfl⟩, ⟨_, rfl, rfl⟩⟩
  by_cases h : b = 1
  · subst h
    exact ⟨⟨by decide, by decide, by decide⟩, by decide⟩
  · have e : otherPadding.bank b = demo.bank b := by
      match b, h with
      | 0, _ => rfl
      | _ + 2, _ => rfl
    simp [SameDescriptor, State.valid, State.bitlen, State.wcount, State.bit, State.word, e]

theorem witness_FreeEveryBankReachesAllFree : demo.Inv ∧ 2 < demo.cfg.nbanks ∧ demo.valid 0 = true := by decide

/-- CREATE over a valid bank with every word of the array: with exactly enough room, and with a bit too many. -/
theorem witness_CreateBuildsTheInstance : ([1, 2] : List Word).length ≤ demo.cfg.wmax ∧
    (128 : Word).toNat ≤ ([1, 2] : List Word).length * 64 ∧ ([1, 2] : List Word).length * 64 < (129 : Word).toNat := by decide

end Sys2Proof.Tests
end

/-! PROOFS. The state after reset (spec/10_state.md R28) and the life of an instance (R21). -/

namespace Sys2Proof.Machine

open Sys2Proof.Claims

/-! ## After reset every bank is free (R28) -/

/-- Bank `b` after reset is free and holds the words given. -/
theorem State.bank_afterReset {cfg : Config} (w : Nat → Nat → Word) {b : Nat} (hb : b < cfg.nbanks) :
    (State.afterReset cfg w).bank b = ⟨false, 0, 0, (List.range cfg.wmax).map (w b)⟩ := by
  simp [State.bank, State.afterReset, List.getD_eq_getElem?_getD, banksAfterReset_getElem hb]

theorem State.afterReset_bank_free {cfg : Config} (w : Nat → Nat → Word) {b : Nat} (hb : b < cfg.nbanks) :
    (State.afterReset cfg w).valid b = false ∧ (State.afterReset cfg w).bitlen b = 0 ∧
      (State.afterReset cfg w).wcount b = 0 := by
  simp [State.valid, State.bitlen, State.wcount, State.bank_afterReset w hb]

/-- Settles O13: every bank below `NBANKS` is free after reset, and this hardware's reset state is an instance of that. -/
theorem afterResetEveryBankIsFree : Obligations.AfterResetEveryBankIsFree :=
  ⟨fun _ w _ hb => State.afterReset_bank_free w hb,
    fun _ hb => State.afterReset_bank_free (cfg := Config.bfu) _ hb, rfl, rfl⟩

/-! ## The descriptor of a bank (R15 to R17) under the updates -/

theorem sameDescriptor_of_bank_eq {s t : State} {b : Nat} (h : t.bank b = s.bank b) : SameDescriptor b s t := by
  simp [SameDescriptor, State.valid, State.bitlen, State.wcount, h]

/-- Writing the words of any bank keeps the descriptor of every bank. -/
theorem sameDescriptor_setWords {s : State} {b' : Nat} {ws : List Word}
    (hl : ws.length = (s.bank b').words.length) (b : Nat) : SameDescriptor b s (s.setWords b' ws) := by
  by_cases hb : b = b'
  · subst hb
    simp [SameDescriptor, State.valid, State.bitlen, State.wcount, State.bank_setWords_same s b ws hl]
  · exact sameDescriptor_of_bank_eq (State.bank_setWords_other s b' b ws hb)

/-- Writing another bank keeps the descriptor of `b`. -/
theorem sameDescriptor_setBank {s : State} {b b' : Nat} (bk : Bank) (hb : b ≠ b') :
    SameDescriptor b s (s.setBank b' bk) :=
  sameDescriptor_of_bank_eq (State.bank_setBank_other s b' b bk hb)

/-! ## The life of an instance (R21) -/

/-- The commands that may end the instance in bank `b`: a FREE of `b` and a GETF into `b` (R21). -/
def endsInstance (b : Nat) (i : Instr) : Prop :=
  (∃ bt, i = .free bt ∧ bt.toNat = b) ∨ ∃ bt bo x y, i = .getf bt bo x y ∧ bo.toNat = b

/-- A successful NEW was given a free bank (R68). -/
theorem valid_eq_false_of_errorOf_new {s : State} {bt : BankIx} {a n : Word} (h : errorOf s (.new bt a n) = none) :
    s.valid bt.toNat = false := by
  simp only [errorOf] at h
  split_ifs at h with _ hv
  exact Bool.eq_false_iff.2 hv

/-- The effect of a command keeps the size of a live instance, unless the command may end it. -/
theorem Effect.sameDescriptor {s t : State} {i : Instr} {b : Nat} (he : Effect s t i) (hn : errorOf s i = none)
    (hv : s.valid b = true) (hi : ¬ endsInstance b i) : SameDescriptor b s t := by
  cases i with
  | ldw bt a v =>
    subst he
    exact sameDescriptor_setWords List.length_set b
  | new bt a n =>
    subst he
    have hb : b ≠ bt.toNat := by
      rintro rfl
      exact absurd hv (by simp [valid_eq_false_of_errorOf_new hn])
    exact sameDescriptor_setBank _ hb
  | free bt =>
    subst he
    have hb : b ≠ bt.toNat := fun e => hi (.inl ⟨bt, rfl, e.symm⟩)
    exact sameDescriptor_setBank _ hb
  | len bt =>
    subst he
    exact sameDescriptor_of_bank_eq rfl
  | setf bt bo a =>
    obtain ⟨ws, rfl, hl, -⟩ := he
    exact sameDescriptor_setWords hl b
  | setfi bt a n v =>
    obtain ⟨ws, rfl, hl, -⟩ := he
    exact sameDescriptor_setWords hl b
  | getf bt bo a n =>
    obtain ⟨tmp, rfl, -, -⟩ := he
    have hb : b ≠ bo.toNat := fun e => hi (.inr ⟨bt, bo, a, n, rfl, e.symm⟩)
    exact sameDescriptor_setBank _ hb
  | getfi bt a n =>
    obtain ⟨r, rfl, -⟩ := he
    exact sameDescriptor_of_bank_eq rfl
  | hex bt =>
    subst he
    exact sameDescriptor_of_bank_eq rfl

/-- A command keeps the size of a live instance, unless it may end it. -/
theorem exec_sameDescriptor {s t : State} {i : Instr} {b : Nat} (hs : s.Inv) (h : exec i s = .next t)
    (hv : s.valid b = true) (hi : ¬ endsInstance b i) : SameDescriptor b s t := by
  rcases exec_cases hs h with ⟨st, d, -, rfl⟩ | ⟨hn, he⟩
  · exact sameDescriptor_of_bank_eq rfl
  · exact he.sameDescriptor hn hv hi

/-- A command the unit takes, legal or not, keeps the size of a live instance, unless it decodes to one that may end
it. -/
theorem runCommand_sameDescriptor {s t : State} {c : Command} {b : Nat} (hs : s.Inv) (h : runCommand c s = .next t)
    (hv : s.valid b = true) : SameDescriptor b s t ∨ ∃ i, decode s.cfg c = .ok i ∧ endsInstance b i := by
  unfold runCommand at h
  split at h
  next i hd =>
    by_cases hi : endsInstance b i
    · exact .inr ⟨i, hd, hi⟩
    · exact .inl (exec_sameDescriptor hs h hv hi)
  next =>
    cases h
    exact .inl (sameDescriptor_of_bank_eq rfl)

/-- A step keeps the size of a live instance, unless it is a reset or takes a command that may end it. -/
theorem step_sameDescriptor {s t : State} {b : Nat} (hs : s.Inv) (h : step s = .next t) (hv : s.valid b = true) :
    SameDescriptor b s t ∨ (∃ rest, s.inputs = .reset :: rest) ∨
      ∃ c rest i, s.inputs = .command c :: rest ∧ decode s.cfg c = .ok i ∧ endsInstance b i := by
  rcases step_cases h with
    rfl | ⟨c, rest, -, hin, hrun⟩ | ⟨p, rest, -, -, -, rfl⟩ | ⟨p, rest, -, -, rfl⟩ | ⟨rest, hin, -⟩
  · exact .inl (sameDescriptor_of_bank_eq rfl)
  · rcases runCommand_sameDescriptor (s := { s with inputs := rest }) hs hrun hv with hsame | ⟨i, hd, hi⟩
    · exact .inl hsame
    · exact .inr (.inr ⟨c, rest, i, hin, hd, hi⟩)
  · exact .inl (sameDescriptor_of_bank_eq rfl)
  · exact .inl (sameDescriptor_of_bank_eq rfl)
  · exact .inr (.inl ⟨rest, hin⟩)

/-- Settles O18: the descriptor of a live instance stays in every step but a reset, a FREE of its bank and a GETF into
it. -/
theorem sizeIsImmutable : Obligations.SizeIsImmutable := by
  intro s t b hs h hv
  rcases step_sameDescriptor hs h hv with
    ⟨hvalid, hbitlen, hwcount⟩ | hreset | ⟨c, rest, i, hin, hd, ⟨bt, rfl, hb⟩ | ⟨bt, bo, x, y, rfl, hb⟩⟩
  · exact .inl ⟨hvalid.trans hv, hbitlen, hwcount⟩
  · exact .inr (.inl hreset)
  · exact .inr (.inr ⟨c, rest, hin, .inl ⟨bt, hd, hb⟩⟩)
  · exact .inr (.inr ⟨c, rest, hin, .inr ⟨bt, bo, x, y, hd, hb⟩⟩)

end Sys2Proof.Machine

/-! PROOFS. `MemRead` and `MemWrite` (spec/20_memory.md R36, R37). -/

namespace Sys2Proof.Machine

open Sys2Proof.Claims

/-! ## `MemRead` (R36) -/

/-- `MemRead` of a field of at most 64 bits inside the instance answers the bits of the field, zero-extended. -/
theorem State.memRead_spec {s : State} {b addr n : Nat} (hn : n ≤ 64) (h : addr + n ≤ (s.bitlen b).toNat) :
    ∃ r, s.memRead b addr n = some r ∧
      ∀ i, r.getLsbD i = (decide (i < n) && bitOf (s.bank b).words (addr + i)) := by
  obtain ⟨r, hread, hbits⟩ := State.readBits_spec (s := s) (b := b) (addr := addr) n 0 0 (by omega) (by omega)
  exact ⟨r, hread, fun i => by simp [hbits]⟩

/-- GETFI of a field of at most 64 bits inside a valid instance answers what `MemRead` answers (R80). -/
theorem getfi_answers_memRead {s : State} {bt : BankIx} {a n r : Word} (hb : bt.toNat < s.cfg.nbanks)
    (hv : s.valid bt.toNat = true) (hn : n.toNat ≤ 64) (h : a.toNat + n.toNat ≤ (s.bitlen bt.toNat).toNat)
    (hread : s.memRead bt.toNat a.toNat n.toNat = some r) : Answers (.getfi bt a n) s ⟨.ok, r, []⟩ := by
  have hbank : ¬ s.hasBank bt = false := by rw [hasBank_eq_false]; omega
  have hvalid : ¬ s.valid bt.toNat = false := by simp [hv]
  have hrange : ¬ (Config.fieldIntMax < n.toNat ∨ s.inRange bt.toNat a n.toNat = false) := by
    rw [inRange_eq_false, Config.fieldIntMax]; omega
  simp only [Answers, exec, execGetfi, if_neg hbank, if_neg hvalid, if_neg hrange, hread]
  rfl

/-- Settles O20: the bits of the result are those of the specification of the read loop, which `getBit` answers one by
one; a GETFI that passes its checks answers the result. -/
theorem memReadIsTheFieldBits : Obligations.MemReadIsTheFieldBits := by
  intro s bt a n hn h
  obtain ⟨r, hread, hbits⟩ := State.memRead_spec hn h
  refine ⟨r, hread, fun i hi => ?_, fun i hi => ?_, fun hb hv => getfi_answers_memRead hb hv hn h hread⟩
  · rw [State.getBit_eq (by omega), hbits, decide_eq_true hi, Bool.true_and]
  · rw [hbits, decide_eq_false (by omega), Bool.false_and]

/-! ## `MemWrite` (R37) -/

/-- Writing the words of a bank leaves everything but that bank. -/
theorem onlyBank_setWords (s : State) (b : Nat) (ws : List Word) : OnlyBank b s (s.setWords b ws) :=
  ⟨rfl, rfl, rfl, rfl, List.length_set, fun b' hb' => State.bank_setWords_other s b b' ws hb'⟩

/-- `MemWrite` of a field of any length inside an instance that its words cover writes the words of that bank: the field
takes the bits of the value, which has none above bit 63, and every other bit stays. -/
theorem State.memWrite_spec {s : State} {b addr n : Nat} (v : Word) (h : addr + n ≤ (s.bitlen b).toNat)
    (hcover : (s.bitlen b).toNat ≤ 64 * (s.bank b).words.length) :
    ∃ ws, s.memWrite b addr n v = some (s.setWords b ws) ∧ ws.length = (s.bank b).words.length ∧
      ∀ j, bitOf ws j = if addr ≤ j ∧ j < addr + n then v.getLsbD (j - addr) else bitOf (s.bank b).words j :=
  State.writeBits_spec v n 0 s h hcover

/-- Settles O21: by the invariants the words cover the instance, so `MemWrite` writes the words of the bank and nothing
else, and its specification gives each bit. -/
theorem memWriteWritesTheField : Obligations.MemWriteWritesTheField := by
  intro s b addr n v hs hb h
  obtain ⟨ws, hwrite, hlen, hbits⟩ := State.memWrite_spec v h (hs.bank_ok hb).bitlen_le
  refine ⟨_, hwrite, rfl, onlyBank_setWords s b ws, sameDescriptor_setWords hlen b, fun i hi => ?_, fun j hj => ?_⟩
  · rw [State.bit_setWords hlen, hbits, if_pos (by omega), Nat.add_sub_cancel_left]
    split
    next => rfl
    next hi64 => exact BitVec.getLsbD_of_ge v i (Nat.le_of_not_lt hi64)
  · rw [State.bit_setWords hlen, hbits, if_neg hj, State.bit_eq]

end Sys2Proof.Machine

/-! PROOFS. Command words that spell no command (spec/30_encoding.md R56 to R58, spec/60_exceptions.md R89), operands a
command does not use (R59), and the data and bytes of a successful response (R65). -/

namespace Sys2Proof

/-! ## The opcode numbers (R54) -/

/-- No command has a reserved opcode number (R56). -/
theorem Opcode.code_not_reserved (o : Opcode) : ¬ (o.code.toNat = 0 ∨ 9 < o.code.toNat) := by
  rw [← Opcode.ofCode?_eq_none, Opcode.ofCode?_code]
  exact Option.some_ne_none o

/-- SETF and GETF alone use `bo` (R54). -/
theorem Opcode.usesBo_iff_code (o : Opcode) : o.usesBo = true ↔ o.code = 5 ∨ o.code = 7 := by
  cases o <;> decide

/-! ## Decoding depends on the command word and the operands used (R51, R59) -/

/-- A command is built from its command word and the operands its opcode uses. -/
theorem Opcode.build_congr {o : Opcode} {c c' : Command} (hcw : c.cw = c'.cw)
    (h : Claims.AgreeOnUsedOperands o.code.toNat c c') : o.build c = o.build c' := by
  obtain ⟨hldw, htwo, hsetf, hsetfi⟩ := h
  have hbt : c.bt = c'.bt := by simp only [Command.bt, hcw]
  have hbo : c.bo = c'.bo := by simp only [Command.bo, hcw]
  cases o with
  | ldw => obtain ⟨ha, hv⟩ := hldw rfl; simp only [build, hbt, ha, hv]
  | new => obtain ⟨ha, hb⟩ := htwo (.inl rfl); simp only [build, hbt, ha, hb]
  | free => simp only [build, hbt]
  | len => simp only [build, hbt]
  | setf => simp only [build, hbt, hbo, hsetf rfl]
  | setfi => obtain ⟨ha, hb, hv⟩ := hsetfi rfl; simp only [build, hbt, ha, hb, hv]
  | getf => obtain ⟨ha, hb⟩ := htwo (.inr (.inl rfl)); simp only [build, hbt, hbo, ha, hb]
  | getfi => obtain ⟨ha, hb⟩ := htwo (.inr (.inr rfl)); simp only [build, hbt, ha, hb]
  | hex => simp only [build, hbt]

/-- Whether a command decodes, and its opcode, depend on its command word alone (R55). -/
theorem decode_ok_of_cw_eq {cfg : Config} {c c' : Command} {i : Instr} (hcw : c.cw = c'.cw)
    (h : decode cfg c = .ok i) :
    ∃ o : Opcode, c.op = o.code ∧ i = o.build c ∧ decode cfg c' = .ok (o.build c') := by
  obtain ⟨hrsv, o, hop, hunused, hbt, hbo, rfl⟩ := decode_eq_ok.1 h
  refine ⟨o, hop, rfl, decode_eq_ok.2 ?_⟩
  simp only [Command.rsv, Command.op, Command.bt, Command.bo, hcw] at hrsv hop hunused hbt hbo ⊢
  exact ⟨hrsv, o, hop, hunused, hbt, hbo, rfl⟩

end Sys2Proof

namespace Sys2Proof.Machine

open Sys2Proof.Claims

/-! ## Command words that spell no command (R56 to R58, R89) -/

/-- A command that does not decode is answered `ILLEGAL_COMMAND`, and nothing but the response port changes. -/
theorem runCommand_illegal {s : State} {c : Command} (h : ∀ i, decode s.cfg c ≠ .ok i) :
    runCommand c s = .next (s.withResponse ⟨.illegalCommand, 0, []⟩) := by
  unfold runCommand
  split
  next i hd => exact absurd hd (h i)
  next => rfl

/-- Settles O3: each way to be illegal contradicts one of the conditions under which a command decodes, and a command
that does not decode is answered `ILLEGAL_COMMAND`. -/
theorem illegalWordsAreRefused : Obligations.IllegalWordsAreRefused := by
  intro s c rest hp hin hillegal
  rw [step_command hp hin]
  refine runCommand_illegal fun i hd => ?_
  obtain ⟨hrsv, o, hop, hunused, hbt, hbo, -⟩ := decode_eq_ok.1 hd
  change c.cw.extractLsb' 0 8 = o.code at hop
  rw [hop] at hillegal
  rcases hillegal with h | h | h | ⟨h5, h7, h⟩ | h | ⟨huse, h⟩
  · exact h hrsv
  · exact o.code_not_reserved (.inl h)
  · exact o.code_not_reserved (.inr h)
  · have hnot : o.usesBo = false := by
      rw [Bool.eq_false_iff, ne_eq, o.usesBo_iff_code]
      exact not_or.2 ⟨h5, h7⟩
    exact h (hunused hnot)
  · exact absurd hbt (Nat.not_lt.2 h)
  · exact absurd (hbo (o.usesBo_iff_code.2 huse)) (Nat.not_lt.2 h)

/-! ## Operands a command does not use (R59) -/

/-- Two commands with one command word that decodes run alike if they agree on the operands its opcode uses. -/
theorem runCommand_congr {s : State} {c c' : Command} {i : Instr} (hcw : c.cw = c'.cw)
    (hd : decode s.cfg c = .ok i) (hagree : AgreeOnUsedOperands c.op.toNat c c') : runCommand c s = runCommand c' s := by
  obtain ⟨o, hop, rfl, hd'⟩ := decode_ok_of_cw_eq hcw hd
  rw [hop] at hagree
  rw [← Opcode.build_congr hcw hagree] at hd'
  simp only [runCommand, hd, hd']

/-- Two commands with one command word that spells no command run alike, whatever the operands (R89). -/
theorem runCommand_congr_illegal {s : State} {c c' : Command} (hcw : c.cw = c'.cw)
    (h : ∀ i, decode s.cfg c ≠ .ok i) : runCommand c s = runCommand c' s := by
  have h' : ∀ i, decode s.cfg c' ≠ .ok i := by
    intro i hd'
    obtain ⟨o, -, -, hd⟩ := decode_ok_of_cw_eq hcw.symm hd'
    exact h _ hd
  rw [runCommand_illegal h, runCommand_illegal h']

/-- Settles O5: the step runs the command; where its word decodes, the instruction is built from the word and the operands
used, and where it does not, the answer is `ILLEGAL_COMMAND` whatever the operands. -/
theorem unusedOperandsHaveNoEffect : Obligations.UnusedOperandsHaveNoEffect := by
  intro s c c' rest hp hcw h
  rw [step_command (s := { s with inputs := .command c :: rest }) hp rfl,
    step_command (s := { s with inputs := .command c' :: rest }) hp rfl]
  cases hd : decode s.cfg c with
  | error e => exact runCommand_congr_illegal hcw fun i hok => by simp [hd] at hok
  | ok i =>
    rcases h with hagree | ⟨e, he⟩
    · exact runCommand_congr hcw hd hagree
    · simp [hd] at he

/-! ## The data and bytes of a successful response (R65) -/

/-- The result is a response which, if it is `OK`, has the property `P`. -/
def OkResponse (P : Response → Prop) (x : Result) : Prop :=
  ∃ t r, x = .next (State.withResponse t r) ∧ (r.status = .ok → P r)

theorem okResponse_respond {P : Response → Prop} {d : Word} {bs : List Byte} (s : State) (h : P ⟨.ok, d, bs⟩) :
    OkResponse P (s.respond d bs) :=
  ⟨s, _, rfl, fun _ => h⟩

theorem okResponse_raise {P : Response → Prop} (s : State) {st : Status} (d : Word) (h : st ≠ .ok := by decide) :
    OkResponse P (s.raise st d) :=
  ⟨s, _, rfl, fun hok => absurd hok h⟩

/-- A check that raises an error in front of a meaning. -/
theorem okResponse_check {P : Response → Prop} {s : State} {st : Status} {d : Word} {x : Result} {c : Prop}
    [Decidable c] (hx : OkResponse P x) (h : st ≠ .ok := by decide) : OkResponse P (if c then s.raise st d else x) := by
  split
  · exact okResponse_raise s d h
  · exact hx

/-- What R65 says of the successful response of a command: the length for LEN, the field for GETFI, `data` 0 for every
other command, and bytes for HEX alone. -/
def SuccessData (s : State) : Instr → Response → Prop
  | .len bt, r => r.data = s.bitlen bt.toNat ∧ r.bytes = []
  | .getfi bt a b, r => s.memRead bt.toNat a.toNat b.toNat = some r.data ∧ r.bytes = []
  | .hex _, r => r.data = 0
  | _, r => r.data = 0 ∧ r.bytes = []

/-- Every command, from every state, answers a response that is as R65 says where it is `OK`. -/
theorem exec_okResponse (s : State) (i : Instr) : OkResponse (SuccessData s i) (exec i s) := by
  cases i with
  | ldw => exact okResponse_check (okResponse_check (okResponse_check (okResponse_respond _ ⟨rfl, rfl⟩)))
  | new =>
    exact okResponse_check (okResponse_check (okResponse_check (okResponse_check (okResponse_respond _ ⟨rfl, rfl⟩))))
  | free => exact okResponse_check (okResponse_respond _ ⟨rfl, rfl⟩)
  | len => exact okResponse_check (okResponse_check (okResponse_respond _ ⟨rfl, rfl⟩))
  | setf | setfi | getf =>
    refine okResponse_check (okResponse_check (okResponse_check ?_))
    split
    · exact okResponse_raise _ _
    · exact okResponse_respond _ ⟨rfl, rfl⟩
  | getfi =>
    refine okResponse_check (okResponse_check (okResponse_check ?_))
    split
    next => exact okResponse_raise _ _
    next r hread => exact okResponse_respond _ ⟨hread, rfl⟩
  | hex => exact okResponse_check (okResponse_check (okResponse_respond _ rfl))

section

variable {s : State} {i : Instr} {r : Response}

theorem SuccessData.data_eq_zero (h : SuccessData s i r) (hlen : i.opcode ≠ .len) (hgetfi : i.opcode ≠ .getfi) :
    r.data = 0 := by
  cases i with
  | ldw | new | free | setf | setfi | getf => exact h.1
  | len => exact absurd rfl hlen
  | getfi => exact absurd rfl hgetfi
  | hex => exact h

theorem SuccessData.bytes_eq_nil (h : SuccessData s i r) (hhex : i.opcode ≠ .hex) : r.bytes = [] := by
  cases i with
  | ldw | new | free | len | setf | setfi | getf | getfi => exact h.2
  | hex => exact absurd rfl hhex

end

/-- Settles O45: the one response a command answers stands in its next state, and is as R65 says. -/
theorem dataAndBytesOnSuccess : Obligations.DataAndBytesOnSuccess := by
  intro s t i p h hp hok
  obtain ⟨u, r, hexec, hr⟩ := exec_okResponse s i
  obtain rfl : u.withResponse r = t := Host.Outcome.next.inj (hexec.symm.trans h)
  obtain rfl : ⟨r, 0⟩ = p := Option.some.inj hp
  have hdata := hr hok
  refine ⟨?_, ?_, hdata.data_eq_zero, hdata.bytes_eq_nil⟩
  · rintro bt rfl
    exact hdata.1
  · rintro bt a b rfl
    exact hdata.1

end Sys2Proof.Machine

/-! PROOFS. The commands that construct, release and measure an instance (spec/40_lifecycle.md R67 to R70). -/

namespace Sys2Proof

/-! ## Decoding an encoded command word (R50, R54, R55) -/

/-- A command uses `bo` if its instruction names another bank (R51, R54). -/
theorem Instr.usesBo_opcode (i : Instr) : i.opcode.usesBo = i.bo?.isSome := by
  cases i <;> rfl

/-- An instruction is what its opcode builds from a command with its banks and its operands (R51). -/
theorem Instr.eq_build {c : Command} {i : Instr} (hbt : c.bt = i.bt) (hbo : ∀ bo ∈ i.bo?, c.bo = bo)
    (hops : Claims.OperandsOf c i) : i = i.opcode.build c := by
  cases i with
  | free | len | hex =>
    cases hbt
    rfl
  | ldw | new | getfi =>
    obtain ⟨rfl, rfl⟩ := hops
    cases hbt
    rfl
  | setfi =>
    obtain ⟨rfl, rfl, rfl⟩ := hops
    cases hbt
    rfl
  | setf =>
    cases hops
    cases hbt
    cases hbo _ rfl
    rfl
  | getf =>
    obtain ⟨rfl, rfl⟩ := hops
    cases hbt
    cases hbo _ rfl
    rfl

/-- The encoded command word of a well-formed instruction decodes to it with its operands, whatever the operands it does
not use (R59). -/
theorem decode_encodeCw {cfg : Config} {i : Instr} {a b v : Word} (hi : i.WellFormed cfg)
    (hops : Claims.OperandsOf ⟨encodeCw i.opcode i.bt (i.bo?.getD 0), a, b, v⟩ i) :
    decode cfg ⟨encodeCw i.opcode i.bt (i.bo?.getD 0), a, b, v⟩ = .ok i := by
  obtain ⟨eop, ebt, ebo, ersv⟩ := Laws.EncodedFields.of_encodeCw i.opcode i.bt (i.bo?.getD 0) a b v
  obtain ⟨hbt, hbo⟩ := hi
  rw [decode_eq_ok, ebt, ebo]
  refine ⟨ersv, i.opcode, eop, ?_, hbt, ?_, Instr.eq_build ebt ?_ hops⟩
  · intro hunused
    rw [Instr.usesBo_opcode, Option.isSome_eq_false_iff, Option.isNone_iff_eq_none] at hunused
    rw [hunused, Option.getD_none]
  · intro hused
    rw [Instr.usesBo_opcode, Option.isSome_iff_exists] at hused
    obtain ⟨bo, h⟩ := hused
    rw [h, Option.getD_some]
    exact hbo bo h
  · intro bo h
    rw [ebo, h, Option.getD_some]

/-- A command that names one bank: its word, the opcode number and `bt` alone, decodes to it. -/
theorem decode_oneBank {cfg : Config} {i : Instr} {w : CmdWord} {a b v : Word} (hw : i.opcode.code.setWidth 32 = w)
    (hbo : i.bo? = none) (hbt : i.bt.toNat < cfg.nbanks)
    (hops : Claims.OperandsOf ⟨w ||| (i.bt.setWidth 32 <<< 8), a, b, v⟩ i) :
    decode cfg ⟨w ||| (i.bt.setWidth 32 <<< 8), a, b, v⟩ = .ok i := by
  have hcw : w ||| (i.bt.setWidth 32 <<< 8) = encodeCw i.opcode i.bt (i.bo?.getD 0) := by
    simp [encodeCw, hbo, hw]
  rw [hcw] at hops ⊢
  exact decode_encodeCw ⟨hbt, by simp [hbo]⟩ hops

end Sys2Proof

namespace Sys2Proof.Machine

open Sys2Proof.Claims

/-! ## Answers and frames -/

/-- A command with an error answers it, and nothing but the response port changes (R95). -/
theorem answers_of_errorOf {s : State} {i : Instr} {st : Status} {d : Word} (h : errorOf s i = some (st, d)) :
    Answers i s ⟨st, d, []⟩ := exec_error h

/-- The frame of a bank leaves the response port out. -/
theorem onlyBank_withResponse {s t : State} {b : Nat} (h : OnlyBank b s t) (r : Response) :
    OnlyBank b s (t.withResponse r) := h

theorem sameDescriptor_withResponse {s t : State} {b : Nat} (h : SameDescriptor b s t) (r : Response) :
    SameDescriptor b s (t.withResponse r) := h

/-- Writing a bank leaves everything but that bank. -/
theorem onlyBank_setBank (s : State) (b : Nat) (bk : Bank) : OnlyBank b s (s.setBank b bk) :=
  ⟨rfl, rfl, rfl, rfl, List.length_set, fun b' hb' => State.bank_setBank_other s b b' bk hb'⟩

namespace State

/-! ## One word of a bank (R18) -/

section

variable {s : State} {b k : Nat} {w : Word}

theorem word_setWord_same (hk : k < (s.bank b).words.length) : (s.setWord b k w).word b k = w := by
  rw [setWord_eq, word_setWords List.length_set]
  simp [List.getD_eq_getElem?_getD, hk]

theorem word_setWord_other {j : Nat} (hj : j ≠ k) : (s.setWord b k w).word b j = s.word b j := by
  rw [setWord_eq, word_setWords List.length_set, word, Bank.word]
  simp [List.getD_eq_getElem?_getD, hj.symm]

end

/-! ## The descriptor of a bank (R15 to R17) -/

section

variable {s : State} {b : Nat}

/-- Writing the descriptor writes its three fields. -/
theorem descriptor_setDescriptor {v : Bool} {l : Word} {c : Nat} (hb : b < s.banks.length) :
    (s.setDescriptor b v l c).valid b = v ∧ (s.setDescriptor b v l c).bitlen b = l ∧
      (s.setDescriptor b v l c).wcount b = c := by
  simp only [valid, bitlen, wcount, bank_setDescriptor hb, and_self]

/-- Writing the descriptor keeps the words (R24, R48). -/
theorem word_setDescriptor {v : Bool} {l : Word} {c : Nat} (hb : b < s.banks.length) (k : Nat) :
    (s.setDescriptor b v l c).word b k = s.word b k := by
  simp only [word, Bank.word, bank_setDescriptor hb]

/-- Writing the descriptor a bank has changes nothing. -/
theorem setDescriptor_self (s : State) (b : Nat) :
    s.setDescriptor b (s.valid b) (s.bitlen b) (s.wcount b) = s := setBank_bank s b

/-- A free bank has length 0 and no words (R20 I1). -/
theorem Inv.free_bank (hs : s.Inv) (hb : b < s.cfg.nbanks) (hv : s.valid b = false) :
    s.bitlen b = 0 ∧ s.wcount b = 0 := (hs.bank_ok hb).1 hv

/-- Clearing the descriptor of a free bank changes nothing (R69). -/
theorem Inv.clearDescriptor_free (hs : s.Inv) (hb : b < s.cfg.nbanks) (hv : s.valid b = false) :
    s.setDescriptor b false 0 0 = s := by
  obtain ⟨hlen, hcount⟩ := hs.free_bank hb hv
  have hself := s.setDescriptor_self b
  rwa [hv, hlen, hcount] at hself

end

end State

section

variable {s : State} {bt : BankIx}

/-! ## LDW (R67) -/

/-- The errors of LDW on a bank that exists. -/
theorem errorOf_ldw (hb : bt.toNat < s.cfg.nbanks) (a v : Word) :
    errorOf s (.ldw bt a v) =
      if s.valid bt.toNat = true then some (.bankInUse, 0)
      else if s.cfg.wmax ≤ a.toNat then some (.limitError, BitVec.ofNat 64 s.cfg.wmax) else none :=
  if_neg (Nat.not_le.2 hb)

/-- LDW of a word of a free bank writes it. -/
theorem exec_ldw (hs : s.Inv) (hb : bt.toNat < s.cfg.nbanks) {a : Word} (v : Word) (hv : s.valid bt.toNat = false)
    (ha : a.toNat < s.cfg.wmax) :
    exec (.ldw bt a v) s = .next ((s.setWord bt.toNat a.toNat v).withResponse (okData 0)) := by
  have hnone : errorOf s (.ldw bt a v) = none := by
    rw [errorOf_ldw hb, if_neg (by simp [hv]), if_neg (Nat.not_le.2 ha)]
  obtain ⟨t, hexec, rfl⟩ := exec_effect hs hnone
  exact hexec

/-! ## NEW (R68) -/

/-- The errors of NEW on a bank that exists. -/
theorem errorOf_new (hb : bt.toNat < s.cfg.nbanks) (a n : Word) :
    errorOf s (.new bt a n) =
      if s.valid bt.toNat = true then some (.bankInUse, 0)
      else if s.cfg.wmax < n.toNat then some (.limitError, BitVec.ofNat 64 s.cfg.wmax)
      else if n.toNat * 64 < a.toNat then some (.capacityError, BitVec.ofNat 64 (n.toNat * 64)) else none :=
  if_neg (Nat.not_le.2 hb)

/-- The capacity of a word count within the limit fits the data of a response: it is at most `2^38` (R68, R8). -/
theorem toNat_capacity (hs : s.Inv) {n : Word} (hn : n.toNat ≤ s.cfg.wmax) :
    (BitVec.ofNat 64 (n.toNat * 64)).toNat = n.toNat * 64 := by
  obtain ⟨⟨-, -, -, hmax⟩, -⟩ := hs
  rw [BitVec.toNat_ofNat]
  exact Nat.mod_eq_of_lt (by omega)

/-- NEW in a free bank, of a length its word count covers, writes the descriptor. -/
theorem exec_new (hs : s.Inv) (hb : bt.toNat < s.cfg.nbanks) {a n : Word} (hv : s.valid bt.toNat = false)
    (hn : n.toNat ≤ s.cfg.wmax) (ha : a.toNat ≤ n.toNat * 64) :
    exec (.new bt a n) s = .next ((s.setDescriptor bt.toNat true a n.toNat).withResponse (okData 0)) := by
  have hnone : errorOf s (.new bt a n) = none := by
    rw [errorOf_new hb, if_neg (by simp [hv]), if_neg (Nat.not_lt.2 hn), if_neg (Nat.not_lt.2 ha)]
  obtain ⟨t, hexec, rfl⟩ := exec_effect hs hnone
  exact hexec

/-! ## FREE (R69) -/

/-- FREE of a bank that exists clears its descriptor. -/
theorem exec_free (hs : s.Inv) (hb : bt.toNat < s.cfg.nbanks) :
    exec (.free bt) s = .next ((s.setDescriptor bt.toNat false 0 0).withResponse (okData 0)) := by
  have hnone : errorOf s (.free bt) = none := if_neg (Nat.not_le.2 hb)
  obtain ⟨t, hexec, rfl⟩ := exec_effect hs hnone
  exact hexec

/-! ## LEN (R70) -/

/-- The error of LEN on a bank that exists. -/
theorem errorOf_len (hb : bt.toNat < s.cfg.nbanks) :
    errorOf s (.len bt) = if s.valid bt.toNat = false then some (.noInstance, 0) else none :=
  if_neg (Nat.not_le.2 hb)

/-- LEN of a valid bank answers its length, from every state. -/
theorem answers_len (hb : bt.toNat < s.cfg.nbanks) (hv : s.valid bt.toNat = true) :
    Answers (.len bt) s (okData (s.bitlen bt.toNat)) := by
  have hbank : ¬ s.hasBank bt = false := by rw [hasBank_eq_false]; omega
  have hvalid : ¬ s.valid bt.toNat = false := by simp [hv]
  simp only [Answers, exec, execLen, if_neg hbank, if_neg hvalid]
  rfl

end

/-- Settles O25: the errors are those of `errorOf_ldw`; without one the effect is the write of one word. -/
theorem ldwWritesOneWord : Obligations.LdwWritesOneWord := by
  intro s bt a v hs hb
  refine ⟨fun x => decode_oneBank (i := .ldw bt a v) rfl rfl hb ⟨rfl, rfl⟩, ?_, ?_, ?_⟩
  · intro hv
    exact answers_of_errorOf (by rw [errorOf_ldw hb, if_pos hv])
  · intro hv ha
    exact answers_of_errorOf (by rw [errorOf_ldw hb, if_neg (by simp [hv]), if_pos ha])
  · intro hv ha
    obtain ⟨-, -, -, hlen⟩ := hs.bank_ok hb
    exact ⟨_, exec_ldw hs hb v hv ha, rfl, onlyBank_withResponse (onlyBank_setWords s _ _) _,
      sameDescriptor_withResponse (sameDescriptor_setWords List.length_set _) _,
      State.word_setWord_same (by rwa [hlen]), fun k hk => State.word_setWord_other hk⟩

/-- Settles O26: the errors are those of `errorOf_new`; without one the effect is the write of the descriptor, which keeps
the words. -/
theorem newConstructsOverTheWords : Obligations.NewConstructsOverTheWords := by
  intro s bt a n hs hb
  refine ⟨fun x => decode_oneBank (i := .new bt a n) rfl rfl hb ⟨rfl, rfl⟩, ?_, ?_, ?_, ?_⟩
  · intro hv
    exact answers_of_errorOf (by rw [errorOf_new hb, if_pos hv])
  · intro hv hn
    exact answers_of_errorOf (by rw [errorOf_new hb, if_neg (by simp [hv]), if_pos hn])
  · intro hv hn ha
    refine ⟨_, toNat_capacity hs hn, answers_of_errorOf ?_⟩
    rw [errorOf_new hb, if_neg (by simp [hv]), if_neg (Nat.not_lt.2 hn), if_pos ha]
  · intro hv hn ha
    have hbank := hs.lt_length hb
    obtain ⟨hvalid, hbitlen, hwcount⟩ := State.descriptor_setDescriptor (v := true) (l := a) (c := n.toNat) hbank
    exact ⟨_, exec_new hs hb hv hn ha, rfl, onlyBank_withResponse (onlyBank_setBank s _ _) _, hvalid, hbitlen, hwcount,
      State.word_setDescriptor hbank⟩

/-- Settles O27: the effect is the write of a cleared descriptor, which keeps the words, and which is the descriptor a
free bank has. -/
theorem freeReleasesTheBank : Obligations.FreeReleasesTheBank := by
  intro s bt hs hb
  refine ⟨fun x y z => decode_oneBank (i := .free bt) rfl rfl hb trivial, ?_, ?_⟩
  · have hbank := hs.lt_length hb
    obtain ⟨hvalid, hbitlen, hwcount⟩ := State.descriptor_setDescriptor (v := false) (l := 0) (c := 0) hbank
    exact ⟨_, exec_free hs hb, rfl, onlyBank_withResponse (onlyBank_setBank s _ _) _, hvalid, hbitlen, hwcount,
      State.word_setDescriptor hbank⟩
  · intro hv
    have hexec := exec_free hs hb
    rwa [hs.clearDescriptor_free hb hv] at hexec

/-- Settles O28: LEN asks for an instance alone, and answers its length. -/
theorem lenReturnsBitLength : Obligations.LenReturnsBitLength := by
  intro s bt hb
  refine ⟨fun x y z => decode_oneBank (i := .len bt) rfl rfl hb trivial, ?_, answers_len hb⟩
  intro hv
  exact answers_of_errorOf (by rw [errorOf_len hb, if_pos hv])

end Sys2Proof.Machine

/-! PROOFS. The bit primitives (spec/41_bit_primitives.md R71, R72). -/

namespace Sys2Proof.Machine

namespace State

variable {s : State} {b i : Nat}

/-- `getBit` outside the instance is `IndexError` (R71). -/
theorem getBit_eq_none (h : (s.bitlen b).toNat ≤ i) : s.getBit b i = none := if_pos h

/-- `setBit` outside the instance is `IndexError`, whatever the value (R72). -/
theorem setBit_eq_none (v : Bool) (h : (s.bitlen b).toNat ≤ i) : s.setBit b i v = none := if_pos h

end State

/-- Settles O19: outside the instance both primitives are `IndexError`. Inside, by the invariants the words cover the
instance, so `setBit` writes the words of the bank and nothing else, and its specification gives each bit. -/
theorem bitPrimitives : Obligations.BitPrimitives := by
  intro s b index hs hb
  refine ⟨fun hout => ⟨State.getBit_eq_none hout, fun v => State.setBit_eq_none v hout⟩, fun hin => ?_⟩
  refine ⟨State.getBit_eq hin, fun v => ?_⟩
  have hcover := (hs.bank_ok hb).bitlen_le
  obtain ⟨ws, hset, hlen, hbits⟩ := State.setBit_eq v hin (Nat.lt_of_lt_of_le hin hcover)
  refine ⟨_, hset, rfl, onlyBank_setWords s b ws, sameDescriptor_setWords hlen b, fun j => ?_⟩
  rw [State.bit_setWords hlen, hbits, State.bit_eq]

end Sys2Proof.Machine

/-! PROOFS. Field insertion (spec/42_field_insert.md R74, R76). -/

namespace Sys2Proof

/-- A command that names two banks: its word, the opcode number, `bt` and `bo`, decodes to it. -/
theorem decode_twoBanks {cfg : Config} {i : Instr} {bo : BankIx} {w : CmdWord} {a b v : Word}
    (hw : i.opcode.code.setWidth 32 = w) (hbo : i.bo? = some bo) (hi : i.WellFormed cfg)
    (hops : Claims.OperandsOf ⟨w ||| (i.bt.setWidth 32 <<< 8) ||| (bo.setWidth 32 <<< 12), a, b, v⟩ i) :
    decode cfg ⟨w ||| (i.bt.setWidth 32 <<< 8) ||| (bo.setWidth 32 <<< 12), a, b, v⟩ = .ok i := by
  have hcw : w ||| (i.bt.setWidth 32 <<< 8) ||| (bo.setWidth 32 <<< 12) = encodeCw i.opcode i.bt (i.bo?.getD 0) := by
    rw [encodeCw, hbo, hw, Option.getD_some]
  rw [hcw] at hops ⊢
  exact decode_encodeCw hi hops

end Sys2Proof

namespace Sys2Proof.Machine

open Sys2Proof.Claims

/-! ## A field written into a bank -/

/-- A 64-bit value has no bits above bit 63. -/
theorem getLsbD_eq_ite (v : Word) (i : Nat) : v.getLsbD i = if i < 64 then v.getLsbD i else false := by
  split
  next => rfl
  next hi => exact BitVec.getLsbD_of_ge v i (Nat.le_of_not_lt hi)

/-- The bits of a bank after a field of its words is written: field bit `i` is `f i`, every other bit stays. -/
theorem State.bit_setWords_field {s : State} {b addr n : Nat} {ws : List Word} (f : Nat → Bool)
    (hlen : ws.length = (s.bank b).words.length)
    (hbits : ∀ j, bitOf ws j = if addr ≤ j ∧ j < addr + n then f (j - addr) else bitOf (s.bank b).words j) :
    (∀ i, i < n → (s.setWords b ws).bit b (addr + i) = f i) ∧
      ∀ j, ¬ (addr ≤ j ∧ j < addr + n) → (s.setWords b ws).bit b j = s.bit b j := by
  refine ⟨fun i hi => ?_, fun j hj => ?_⟩
  · rw [State.bit_setWords hlen, hbits, if_pos (by omega), Nat.add_sub_cancel_left]
  · rw [State.bit_setWords hlen, hbits, if_neg hj, State.bit_eq]

section

variable {s : State} {bt bo : BankIx}

/-! ## SETF (R74) -/

/-- The errors of SETF on banks that exist. -/
theorem errorOf_setf (hb : bt.toNat < s.cfg.nbanks) (ho : bo.toNat < s.cfg.nbanks) (a : Word) :
    errorOf s (.setf bt bo a) =
      if s.valid bt.toNat = false ∨ s.valid bo.toNat = false then some (.noInstance, 0)
      else if (s.bitlen bt.toNat).toNat < a.toNat + (s.bitlen bo.toNat).toNat then
        some (.rangeError, s.bitlen bt.toNat) else none :=
  if_neg (by omega)

/-- SETF of a field inside the destination writes its words: the field takes the bits of the source, every other bit
stays. -/
theorem exec_setf (hs : s.Inv) (hb : bt.toNat < s.cfg.nbanks) (ho : bo.toNat < s.cfg.nbanks) {a : Word}
    (hv : s.valid bt.toNat = true) (hvo : s.valid bo.toNat = true)
    (h : a.toNat + (s.bitlen bo.toNat).toNat ≤ (s.bitlen bt.toNat).toNat) :
    ∃ ws, exec (.setf bt bo a) s = .next ((s.setWords bt.toNat ws).withResponse (okData 0)) ∧
      ws.length = (s.bank bt.toNat).words.length ∧
      ∀ j, bitOf ws j = if a.toNat ≤ j ∧ j < a.toNat + (s.bitlen bo.toNat).toNat
        then bitOf (s.bank bo.toNat).words (j - a.toNat) else bitOf (s.bank bt.toNat).words j := by
  have hnone : errorOf s (.setf bt bo a) = none := by
    rw [errorOf_setf hb ho, if_neg (by simp [hv, hvo]), if_neg (Nat.not_lt.2 h)]
  obtain ⟨t, hexec, ws, rfl, hlen, hbits⟩ := exec_effect hs hnone
  exact ⟨ws, hexec, hlen, hbits⟩

/-! ## SETFI (R76) -/

/-- The errors of SETFI on a bank that exists. -/
theorem errorOf_setfi (hb : bt.toNat < s.cfg.nbanks) (a n v : Word) :
    errorOf s (.setfi bt a n v) =
      if s.valid bt.toNat = false then some (.noInstance, 0)
      else if (s.bitlen bt.toNat).toNat < a.toNat + n.toNat then some (.rangeError, s.bitlen bt.toNat) else none :=
  if_neg (Nat.not_le.2 hb)

/-- SETFI of a field inside a valid instance leaves what `MemWrite` leaves. -/
theorem exec_setfi_of_memWrite (hb : bt.toNat < s.cfg.nbanks) {a n v : Word} {u : State}
    (hv : s.valid bt.toNat = true) (h : a.toNat + n.toNat ≤ (s.bitlen bt.toNat).toNat)
    (hwrite : s.memWrite bt.toNat a.toNat n.toNat v = some u) :
    exec (.setfi bt a n v) s = .next (u.withResponse (okData 0)) := by
  have hbank : ¬ s.hasBank bt = false := by rw [hasBank_eq_false]; omega
  have hvalid : ¬ s.valid bt.toNat = false := by simp [hv]
  have hrange : ¬ s.inRange bt.toNat a n.toNat = false := by rw [inRange_eq_false]; omega
  simp only [exec, execSetfi, if_neg hbank, if_neg hvalid, if_neg hrange, hwrite]
  rfl

end

/-- Settles O29: the errors are those of `errorOf_setf`; without one the effect is the write of the field, whose bits are
those of the source. -/
theorem setfCopiesTheField : Obligations.SetfCopiesTheField := by
  intro s bt bo a hs hb ho
  refine ⟨fun x y => decode_twoBanks (i := .setf bt bo a) rfl rfl ⟨hb, by simp [Instr.bo?, ho]⟩ rfl, ?_, ?_, ?_⟩
  · intro hfree
    exact answers_of_errorOf (by rw [errorOf_setf hb ho, if_pos hfree])
  · intro hv hvo hout
    exact answers_of_errorOf (by rw [errorOf_setf hb ho, if_neg (by simp [hv, hvo]), if_pos hout])
  · intro hv hvo hin
    obtain ⟨ws, hexec, hlen, hbits⟩ := exec_setf hs hb ho hv hvo hin
    obtain ⟨hfield, hframe⟩ := State.bit_setWords_field (bitOf (s.bank bo.toNat).words) hlen hbits
    exact ⟨_, hexec, rfl, onlyBank_withResponse (onlyBank_setWords s _ ws) _,
      sameDescriptor_withResponse (sameDescriptor_setWords hlen _) _, hfield, hframe⟩

/-- Settles O31: the errors are those of `errorOf_setfi`; without one the effect is that of `MemWrite`, whose
specification gives each bit. -/
theorem setfiWritesTheValue : Obligations.SetfiWritesTheValue := by
  intro s bt a n v hs hb
  refine ⟨decode_oneBank (i := .setfi bt a n v) rfl rfl hb ⟨rfl, rfl, rfl⟩, ?_, ?_, ?_⟩
  · intro hv
    exact answers_of_errorOf (by rw [errorOf_setfi hb, if_pos hv])
  · intro hv hout
    exact answers_of_errorOf (by rw [errorOf_setfi hb, if_neg (by simp [hv]), if_pos hout])
  · intro hv hin
    obtain ⟨ws, hwrite, hlen, hbits⟩ := State.memWrite_spec v hin (hs.bank_ok hb).bitlen_le
    obtain ⟨hfield, hframe⟩ := State.bit_setWords_field v.getLsbD hlen hbits
    exact ⟨_, exec_setfi_of_memWrite hb hv hin hwrite, rfl, onlyBank_withResponse (onlyBank_setWords s _ ws) _,
      sameDescriptor_withResponse (sameDescriptor_setWords hlen _) _, ⟨_, hwrite, rfl⟩,
      fun i hi => (hfield i hi).trans (getLsbD_eq_ite v i), hframe⟩

end Sys2Proof.Machine

/-! PROOFS. Field extraction (spec/43_field_extract.md R78, R80, R82). -/

namespace Sys2Proof.Machine

open Sys2Proof.Claims

namespace State

/-! ## The instance GETF commits (R78) -/

section

variable {s : State} {b : Nat} {l : Word} {tmp : List Word}

/-- The bank an instance is committed into. -/
theorem bank_commitInstance (hb : b < s.banks.length) :
    (s.commitInstance b l tmp).bank b = ⟨true, l, tmp.length, overlay tmp (s.bank b).words⟩ :=
  bank_setBank_same s b _ hb

/-- The committed instance is valid, of the length given, over the words given. -/
theorem descriptor_commitInstance (hb : b < s.banks.length) :
    (s.commitInstance b l tmp).valid b = true ∧ (s.commitInstance b l tmp).bitlen b = l ∧
      (s.commitInstance b l tmp).wcount b = tmp.length := by
  simp only [valid, bitlen, wcount, bank_commitInstance hb, and_self]

/-- The bits of the committed words, padding included, are those of the words given. -/
theorem bit_commitInstance (hb : b < s.banks.length) (htmp : tmp.length ≤ (s.bank b).words.length) {i : Nat}
    (hi : i < 64 * tmp.length) : (s.commitInstance b l tmp).bit b i = bitOf tmp i := by
  rw [bit_eq, bank_commitInstance hb, bitOf_overlay htmp, if_pos hi]

/-- The words above the committed ones are as they were (R79 (c)). -/
theorem word_commitInstance (hb : b < s.banks.length) (htmp : tmp.length ≤ (s.bank b).words.length) {k : Nat}
    (hk : tmp.length ≤ k) : (s.commitInstance b l tmp).word b k = s.word b k := by
  rw [word, bank_commitInstance hb, Bank.word, overlay_getD _ _ _ htmp, if_neg (Nat.not_lt.2 hk)]
  rfl

end

end State

section

variable {s : State} {bt bo : BankIx}

/-! ## GETF (R78) -/

/-- The errors of GETF on banks that exist: it asks nothing of the receiving bank. -/
theorem errorOf_getf (hb : bt.toNat < s.cfg.nbanks) (ho : bo.toNat < s.cfg.nbanks) (a n : Word) :
    errorOf s (.getf bt bo a n) =
      if s.valid bt.toNat = false then some (.noInstance, 0)
      else if (s.bitlen bt.toNat).toNat < a.toNat + n.toNat then some (.rangeError, s.bitlen bt.toNat) else none :=
  if_neg (by omega)

/-- GETF of a field inside the source commits words whose bits are those of the field, and 0 above it. -/
theorem exec_getf (hs : s.Inv) (hb : bt.toNat < s.cfg.nbanks) (ho : bo.toNat < s.cfg.nbanks) {a n : Word}
    (hv : s.valid bt.toNat = true) (h : a.toNat + n.toNat ≤ (s.bitlen bt.toNat).toNat) :
    ∃ tmp, exec (.getf bt bo a n) s = .next ((s.commitInstance bo.toNat n tmp).withResponse (okData 0)) ∧
      tmp.length = wordsFor n.toNat ∧
      ∀ j, bitOf tmp j = (decide (j < n.toNat) && bitOf (s.bank bt.toNat).words (a.toNat + j)) := by
  have hnone : errorOf s (.getf bt bo a n) = none := by
    rw [errorOf_getf hb ho, if_neg (by simp [hv]), if_neg (Nat.not_lt.2 h)]
  obtain ⟨t, hexec, tmp, rfl, hlen, hbits⟩ := exec_effect hs hnone
  rw [← hlen] at hexec
  exact ⟨tmp, hexec, hlen, hbits⟩

/-! ## GETFI (R80) -/

/-- The errors of GETFI on a bank that exists. -/
theorem errorOf_getfi (hb : bt.toNat < s.cfg.nbanks) (a n : Word) :
    errorOf s (.getfi bt a n) =
      if s.valid bt.toNat = false then some (.noInstance, 0)
      else if 64 < n.toNat ∨ (s.bitlen bt.toNat).toNat < a.toNat + n.toNat then
        some (.rangeError, s.bitlen bt.toNat) else none :=
  if_neg (Nat.not_le.2 hb)

end

/-- Settles O33: the errors are those of `errorOf_getf`; without one the effect is the commit of the extracted words,
read before the commit, which fit the receiving bank because every bank has as many words as the source. -/
theorem getfExtractsTheField : Obligations.GetfExtractsTheField := by
  intro s bt bo a n hs hb ho
  refine ⟨fun x => decode_twoBanks (i := .getf bt bo a n) rfl rfl ⟨hb, by simp [Instr.bo?, ho]⟩ ⟨rfl, rfl⟩, ?_, ?_, ?_⟩
  · intro hv
    exact answers_of_errorOf (by rw [errorOf_getf hb ho, if_pos hv])
  · intro hv hout
    exact answers_of_errorOf (by rw [errorOf_getf hb ho, if_neg (by simp [hv]), if_pos hout])
  · intro hv hin
    obtain ⟨tmp, hexec, hlen, hbits⟩ := exec_getf hs hb ho hv hin
    have hbank := hs.lt_length ho
    have hfit : tmp.length ≤ (s.bank bo.toNat).words.length := hlen ▸ hs.wordsFor_le hb ho hin
    obtain ⟨hvalid, hbitlen, hwcount⟩ := State.descriptor_commitInstance (l := n) (tmp := tmp) hbank
    refine ⟨_, hexec, rfl, onlyBank_withResponse (onlyBank_setBank s _ _) _, hvalid, hbitlen, hwcount.trans hlen,
      fun i hi => ?_, fun k hk => ?_⟩
    · exact (State.bit_commitInstance hbank hfit (by rwa [hlen])).trans (hbits i)
    · exact State.word_commitInstance hbank hfit (hlen.trans_le hk)

/-- Settles O34: the errors are those of `errorOf_getfi`; without one the answer is that of `MemRead`, whose specification
gives each bit. -/
theorem getfiReturnsTheField : Obligations.GetfiReturnsTheField := by
  intro s bt a n hs hb
  refine ⟨fun x => decode_oneBank (i := .getfi bt a n) rfl rfl hb ⟨rfl, rfl⟩, ?_, ?_, ?_⟩
  · intro hv
    exact answers_of_errorOf (by rw [errorOf_getfi hb, if_pos hv])
  · intro hv hout
    exact answers_of_errorOf (by rw [errorOf_getfi hb, if_neg (by simp [hv]), if_pos hout])
  · intro hv hn hin
    obtain ⟨r, hread, hbits⟩ := State.memRead_spec hn hin
    exact ⟨r, getfi_answers_memRead hb hv hn hin hread, hread, hbits⟩

end Sys2Proof.Machine

/-! PROOFS. HEX (spec/44_hex_render.md R83). -/

namespace Sys2Proof.Machine

open Sys2Proof.Claims

/-- The place of every digit: word `k` starts after the words above it, and digit `d` stands `15 - d` into its word. -/
theorem State.hexString_getElem? (s : State) (b : Nat) {n k d : Nat} (hk : k < n) (hd : d < 16) :
    (s.hexString b n)[16 * (n - 1 - k) + (15 - d)]? = some (hexChar ((s.word b k).extractLsb' (4 * d) 4)) := by
  have hdigit : 15 - d < 16 := by omega
  rw [← hexWord_getElem? (s.word b k) hd, ← s.hexString_word b hk, List.getElem?_take_of_lt hdigit,
    List.getElem?_drop]

section

variable {s : State} {bt : BankIx}

/-- The error of HEX on a bank that exists. -/
theorem errorOf_hex (hb : bt.toNat < s.cfg.nbanks) :
    errorOf s (.hex bt) = if s.valid bt.toNat = false then some (.noInstance, 0) else none :=
  if_neg (Nat.not_le.2 hb)

/-- HEX of a valid bank answers its words rendered, from every state. -/
theorem answers_hex (hb : bt.toNat < s.cfg.nbanks) (hv : s.valid bt.toNat = true) :
    Answers (.hex bt) s ⟨.ok, 0, s.hexString bt.toNat (s.wcount bt.toNat)⟩ := by
  have hbank : ¬ s.hasBank bt = false := by rw [hasBank_eq_false]; omega
  have hvalid : ¬ s.valid bt.toNat = false := by simp [hv]
  simp only [Answers, exec, execHex, if_neg hbank, if_neg hvalid]
  rfl

end

/-- Settles O36: HEX asks for an instance alone, and answers the string of its words, whose digits are placed by
`State.hexString_getElem?`. -/
theorem hexRendersEveryBackingWord : Obligations.HexRendersEveryBackingWord := by
  intro s bt hb
  refine ⟨fun x y z => decode_oneBank (i := .hex bt) rfl rfl hb trivial, ?_, ?_⟩
  · intro hv
    exact answers_of_errorOf (by rw [errorOf_hex hb, if_pos hv])
  · intro hv
    exact ⟨_, answers_hex hb hv, State.hexString_length s _ _, fun k d hk hd => s.hexString_getElem? _ hk hd⟩

end Sys2Proof.Machine

/-! PROOFS. The status codes of errors (spec/60_exceptions.md R87, R88, R90 to R92, R95, R96). -/

namespace Sys2Proof.Machine

open Sys2Proof.Claims

section

variable {s t : State} {i : Instr} {st : Status}

/-! ## The answered error is the one of `errorOf` -/

/-- An effect leaves an `OK` response. -/
theorem Effect.succeeded (h : Effect s t i) : ∃ d bs, Succeeded t d bs := by
  cases i with
  | ldw | new | free | len | hex =>
    subst h
    exact ⟨_, _, rfl⟩
  | setf | setfi | getf | getfi =>
    obtain ⟨_, rfl, -⟩ := h
    exact ⟨_, _, rfl⟩

/-- A response other than `OK` is the error of the command. For `RANGE_ERROR` this needs the invariants, without which a
loop may meet `IndexError` (log 8). -/
theorem errorOf_of_response {p : Pending} (h : exec i s = .next t) (hp : t.pending = some p)
    (hok : p.response.status ≠ .ok) (hrange : s.Inv ∨ p.response.status ≠ .rangeError) :
    errorOf s i = some (p.response.status, p.response.data) := by
  rcases hrange with hs | hrange
  · rcases exec_cases hs h with ⟨st, d, he, rfl⟩ | ⟨-, heff⟩
    · cases hp
      exact he
    · obtain ⟨d, bs, hsucc⟩ := heff.succeeded
      obtain rfl := Option.some.inj (hsucc.symm.trans hp)
      exact absurd rfl hok
  · rcases exec_status s i with ⟨st, d, he, hexec⟩ | ⟨-, u, r, hexec, hr⟩ <;>
      obtain rfl := Host.Outcome.next.inj (hexec.symm.trans h) <;>
      cases hp
    · exact he
    · exact absurd hr (not_or.2 ⟨hok, hrange⟩)

/-- A command is answered an error status exactly if its error has that status. -/
theorem answersStatus_iff_errorOf (hok : st ≠ .ok) (hrange : s.Inv ∨ st ≠ .rangeError) :
    AnswersStatus i s st ↔ ∃ d, errorOf s i = some (st, d) := by
  constructor
  · rintro ⟨t, p, h, hp, rfl⟩
    exact ⟨_, errorOf_of_response h hp hok hrange⟩
  · rintro ⟨d, h⟩
    exact ⟨_, _, exec_error h, rfl, rfl⟩

/-! ## The first check that fails gives the status (R96) -/

/-- A check answers its own status where it fails; the checks behind it answer only where it passes. -/
theorem exists_check_eq_some {c : Prop} [Decidable c] {st' : Status} {d' : Word} {x : Option (Status × Word)} :
    (∃ d, (if c then some (st', d') else x) = some (st, d)) ↔
      (c ∧ st' = st) ∨ (¬ c ∧ ∃ d, x = some (st, d)) := by
  split <;> simp [*]

/-- When a command that names existing banks fails with a status: each check stands behind the ones before it. -/
def FailsWith (s : State) (st : Status) : Instr → Prop
  | .ldw bt a _ =>
    s.valid bt.toNat = true ∧ st = .bankInUse ∨
      s.valid bt.toNat = false ∧ s.cfg.wmax ≤ a.toNat ∧ st = .limitError
  | .new bt a b =>
    s.valid bt.toNat = true ∧ st = .bankInUse ∨
      s.valid bt.toNat = false ∧
        (s.cfg.wmax < b.toNat ∧ st = .limitError ∨
          b.toNat ≤ s.cfg.wmax ∧ b.toNat * 64 < a.toNat ∧ st = .capacityError)
  | .free _ => False
  | .len bt => s.valid bt.toNat = false ∧ st = .noInstance
  | .setf bt bo a =>
    (s.valid bt.toNat = false ∨ s.valid bo.toNat = false) ∧ st = .noInstance ∨
      (s.valid bt.toNat = true ∧ s.valid bo.toNat = true) ∧
        (s.bitlen bt.toNat).toNat < a.toNat + (s.bitlen bo.toNat).toNat ∧ st = .rangeError
  | .setfi bt a b _ =>
    s.valid bt.toNat = false ∧ st = .noInstance ∨
      s.valid bt.toNat = true ∧ (s.bitlen bt.toNat).toNat < a.toNat + b.toNat ∧ st = .rangeError
  | .getf bt _ a b =>
    s.valid bt.toNat = false ∧ st = .noInstance ∨
      s.valid bt.toNat = true ∧ (s.bitlen bt.toNat).toNat < a.toNat + b.toNat ∧ st = .rangeError
  | .getfi bt a b =>
    s.valid bt.toNat = false ∧ st = .noInstance ∨
      s.valid bt.toNat = true ∧
        (64 < b.toNat ∨ (s.bitlen bt.toNat).toNat < a.toNat + b.toNat) ∧ st = .rangeError
  | .hex bt => s.valid bt.toNat = false ∧ st = .noInstance

/-- FREE of a bank that exists has no error. -/
theorem errorOf_free {bt : BankIx} (hb : bt.toNat < s.cfg.nbanks) : errorOf s (.free bt) = none :=
  if_neg (Nat.not_le.2 hb)

/-- The status of the error of a command that names existing banks. -/
theorem exists_errorOf_eq_some (hi : i.WellFormed s.cfg) : (∃ d, errorOf s i = some (st, d)) ↔ FailsWith s st i := by
  obtain ⟨hb, ho⟩ := hi
  cases i with
  | ldw bt a v => simp [errorOf_ldw (bt := bt) hb, exists_check_eq_some, FailsWith, eq_comm (a := st)]
  | new bt a b => simp [errorOf_new (bt := bt) hb, exists_check_eq_some, FailsWith, eq_comm (a := st)]
  | free bt => simp [errorOf_free (bt := bt) hb, FailsWith]
  | len bt => simp [errorOf_len (bt := bt) hb, FailsWith, eq_comm (a := st)]
  | setf bt bo a => simp [errorOf_setf (bt := bt) hb (ho bo rfl), exists_check_eq_some, FailsWith, eq_comm (a := st)]
  | setfi bt a b v => simp [errorOf_setfi (bt := bt) hb, exists_check_eq_some, FailsWith, eq_comm (a := st)]
  | getf bt bo a b => simp [errorOf_getf (bt := bt) hb (ho bo rfl), exists_check_eq_some, FailsWith, eq_comm (a := st)]
  | getfi bt a b => simp [errorOf_getfi (bt := bt) hb, exists_check_eq_some, FailsWith, eq_comm (a := st)]
  | hex bt => simp [errorOf_hex (bt := bt) hb, FailsWith, eq_comm (a := st)]

/-- A command that names existing banks is answered an error status exactly if it fails with it. -/
theorem answersStatus_iff_failsWith (hi : i.WellFormed s.cfg) (hok : st ≠ .ok)
    (hrange : s.Inv ∨ st ≠ .rangeError) : AnswersStatus i s st ↔ FailsWith s st i :=
  (answersStatus_iff_errorOf hok hrange).trans (exists_errorOf_eq_some hi)

/-- The `data` of the errors whose `data` does not depend on the command (R90 to R92). -/
theorem errorOf_data {d : Word} (h : errorOf s i = some (st, d)) :
    (st = .noInstance ∨ st = .bankInUse → d = 0) ∧ (st = .limitError → d = BitVec.ofNat 64 s.cfg.wmax) := by
  cases i <;> simp only [errorOf] at h <;> split_ifs at h <;> cases h <;> simp

end

/-- `WMAX` fits the data of a response: it is at most `2^32` (R92, R8). -/
theorem toNat_wmax {s : State} (hs : s.Inv) : (BitVec.ofNat 64 s.cfg.wmax).toNat = s.cfg.wmax := by
  obtain ⟨⟨-, -, -, hmax⟩, -⟩ := hs
  rw [BitVec.toNat_ofNat]
  exact Nat.mod_eq_of_lt (by omega)

/-- Settles O40: of the conditions of `FailsWith` only the last of NEW has the status. -/
theorem capacityErrorExactly : Obligations.CapacityErrorExactly := by
  intro s i hi
  rw [answersStatus_iff_failsWith hi (by decide) (.inr (by decide))]
  cases i <;> simp [FailsWith]

/-- Settles O41: only SETF, SETFI, GETF and GETFI check a range, behind the instances they need; by the invariants no loop
behind that check meets `IndexError`. -/
theorem rangeErrorExactly : Obligations.RangeErrorExactly := by
  intro s i hs hi
  rw [answersStatus_iff_failsWith hi (by decide) (.inl hs)]
  cases i <;> simp [FailsWith, and_assoc]

/-- Settles O42: the check for an instance is the first after that of the banks. -/
theorem noInstanceExactly : Obligations.NoInstanceExactly := by
  intro s i hi
  refine ⟨?_, fun t p h hp hst => ?_⟩
  · rw [answersStatus_iff_failsWith hi (by decide) (.inr (by decide))]
    cases i <;> simp [FailsWith]
  · have he := errorOf_of_response h hp (by simp [hst]) (.inr (by simp [hst]))
    exact (errorOf_data he).1 (.inl hst)

/-- Settles O43: only LDW and NEW ask for a free bank, and compare with `WMAX` behind that. -/
theorem bankInUseAndLimitErrorExactly : Obligations.BankInUseAndLimitErrorExactly := by
  intro s i hs hi
  refine ⟨?_, ?_, fun t p h hp => ⟨fun hst => ?_, fun hst => ?_⟩⟩
  · rw [answersStatus_iff_failsWith hi (by decide) (.inl hs)]
    cases i <;> simp [FailsWith]
  · rw [answersStatus_iff_failsWith hi (by decide) (.inl hs)]
    cases i <;> simp [FailsWith]
  · have he := errorOf_of_response h hp (by simp [hst]) (.inl hs)
    exact (errorOf_data he).1 (.inr hst)
  · have he := errorOf_of_response h hp (by simp [hst]) (.inl hs)
    rw [(errorOf_data he).2 hst, toNat_wmax hs]

/-- Settles O44: a command, legal or not, that is not answered `OK` differs from the state it was run in by its response
alone. -/
theorem errorsLeaveNoTrace : Obligations.ErrorsLeaveNoTrace := by
  intro s t c rest p hp hin hstep hpend hne
  rw [step_command hp hin] at hstep
  obtain ⟨u, r, hrun, -, herror⟩ := runCommand_answers c { s with inputs := rest }
  obtain rfl : u.withResponse r = t := Host.Outcome.next.inj (hrun.symm.trans hstep)
  obtain rfl : ⟨r, 0⟩ = p := Option.some.inj hpend
  obtain ⟨rfl, hbytes⟩ := herror hne
  exact ⟨rfl, hbytes, rfl⟩

end Sys2Proof.Machine

/-! PROOFS. The decoder and the encoder as a whole (spec/30_encoding.md R50, R51, R54, R55). -/

namespace Sys2Proof

/-! ## The encoding of an instruction (R50, R51) -/

/-- The command word of an encoded instruction: its opcode and its banks, 0 where it names no other bank. -/
theorem encode_cw (i : Instr) : (encode i).cw = encodeCw i.opcode i.bt (i.bo?.getD 0) := by
  cases i <;> rfl

/-- An encoded instruction carries its own operands. -/
theorem operandsOf_encode (i : Instr) : Claims.OperandsOf (encode i) i := by
  cases i with
  | ldw | new | getf | getfi => exact ⟨rfl, rfl⟩
  | setfi => exact ⟨rfl, rfl, rfl⟩
  | setf => exact rfl
  | free | len | hex => exact trivial

/-- Settles O1: an encoded instruction is its command word with its own operands, which decodes to it. -/
theorem decodeEncodeRoundTrip : Obligations.DecodeEncodeRoundTrip := by
  intro cfg i hi
  have heq : encode i = ⟨encodeCw i.opcode i.bt (i.bo?.getD 0), (encode i).a, (encode i).b, (encode i).v⟩ := by
    rw [← encode_cw]
  rw [heq]
  exact decode_encodeCw hi (heq ▸ operandsOf_encode i)

/-! ## The opcode map (R51, R54) -/

section

variable (o : Opcode) (c : Command)

theorem Opcode.build_bt : (o.build c).bt = c.bt := by cases o <;> rfl

/-- The built instruction names another bank exactly if its opcode uses `bo`. -/
theorem Opcode.build_bo? : (o.build c).bo? = if o.usesBo then some c.bo else none := by cases o <;> rfl

/-- The built instruction has the operands of R51. -/
theorem Opcode.operandsOf_build : Claims.OperandsOf c (o.build c) := by
  cases o with
  | ldw | new | getf | getfi => exact ⟨rfl, rfl⟩
  | setfi => exact ⟨rfl, rfl, rfl⟩
  | setf => exact rfl
  | free | len | hex => exact trivial

/-- The built instruction is well-formed exactly if the banks its opcode uses exist (R58). -/
theorem Opcode.wellFormed_build (cfg : Config) :
    (o.build c).WellFormed cfg ↔ c.bt.toNat < cfg.nbanks ∧ (o.usesBo = true → c.bo.toNat < cfg.nbanks) := by
  rw [Instr.WellFormed, Opcode.build_bt, Opcode.build_bo?]
  cases o.usesBo <;> simp

end

/-- An instruction is the one its opcode builds from a command exactly if its banks and its operands are the
command's. -/
theorem Instr.eq_build_iff {c : Command} {i : Instr} :
    i = i.opcode.build c ↔ i.bt = c.bt ∧ (∀ bo ∈ i.bo?, bo = c.bo) ∧ Claims.OperandsOf c i := by
  constructor
  · intro h
    rw [h, Opcode.build_bt, Opcode.build_bo?]
    refine ⟨rfl, fun bo hbo => ?_, Opcode.operandsOf_build _ c⟩
    split at hbo
    · exact (Option.some.inj hbo).symm
    · cases hbo
  · rintro ⟨hbt, hbo, hops⟩
    exact Instr.eq_build hbt.symm (fun bo h => (hbo bo h).symm) hops

/-- Settles O2: the mask and pattern are the decoder's checks of the reserved field, the opcode number and an unused `bo`;
its check of the banks is well-formedness, and the instruction it builds is the one with the command's banks and
operands. -/
theorem decodesExactlyTheOpcodeMap : Obligations.DecodesExactlyTheOpcodeMap := by
  intro cfg c i
  rw [decode_eq_ok, and_mask_eq_pattern]
  constructor
  · rintro ⟨hrsv, o, hop, hunused, hbt, hbo, rfl⟩
    have hbuild : o.build c = (o.build c).opcode.build c := by rw [Opcode.build_opcode]
    obtain ⟨ebt, ebo, eops⟩ := Instr.eq_build_iff.1 hbuild
    rw [Opcode.build_opcode]
    exact ⟨⟨hrsv, hop, hunused⟩, ebt, ebo, eops, (Opcode.wellFormed_build o c cfg).2 ⟨hbt, hbo⟩⟩
  · rintro ⟨⟨hrsv, hop, hunused⟩, ebt, ebo, eops, hwf⟩
    have hbuild : i = i.opcode.build c := Instr.eq_build_iff.2 ⟨ebt, ebo, eops⟩
    rw [hbuild] at hwf
    obtain ⟨hbt, hbo⟩ := (Opcode.wellFormed_build _ c cfg).1 hwf
    exact ⟨hrsv, i.opcode, hop, hunused, hbt, hbo, hbuild⟩

/-- Settles O4: each word is decoded by evaluation. -/
theorem sampleWordsDecode : Obligations.SampleWordsDecode := by
  unfold Obligations.SampleWordsDecode
  decide

end Sys2Proof

/-! PROOFS. The assembler text (spec/30_encoding.md R61). -/

namespace Sys2Proof.Machine.Asm

/-- The operands written are plain text: no space, comma or semicolon. -/
theorem plain_operands {xs : List (List Char)} (h : ∀ x ∈ xs, (∃ b, x = showBank b) ∨ ∃ w, x = showWord w) :
    ∀ x ∈ xs, Plain x := by
  intro x hx
  rcases h x hx with ⟨b, rfl⟩ | ⟨w, rfl⟩
  · exact plain_showBank b
  · exact plain_showWord w

/-- Settles O6: the line of an instruction is read as its mnemonic and its operands, and each operand is read back. -/
theorem assemblerTextReadsBack : Obligations.AssemblerTextReadsBack := by
  intro i
  cases i <;>
    rw [showInstr, readLine_showLine (by simp [Plain]) (by decide) (plain_operands (by simp))] <;>
    simp [readInstr, readBank_showBank, readWord_showWord]

end Sys2Proof.Machine.Asm

/-! PROOFS. Steps, responses and the host (spec/70_reset_and_hazards.md R102, R103, R107 to R115; spec/30_encoding.md R64,
R66). -/

namespace Sys2Proof.Machine

open Sys2Proof.Claims

section

variable {s : State} {rest : List HostInput} {p : Pending}

/-! ## The step of each input of the host (R107, R108) -/

/-- A command waits while a response is pending. -/
theorem step_command_waits {c : Command} (hp : s.pending = some p) (hin : s.inputs = .command c :: rest) :
    step s = .next s := by
  simp [step, State.nextInput, hin, State.cmdReady, hp]

/-- A byte that is left is taken. -/
theorem step_takeByte (hp : s.pending = some p) (hin : s.inputs = .takeByte :: rest)
    (hleft : p.bytesTaken < p.response.bytes.length) :
    step s = .next { s with pending := some { p with bytesTaken := p.bytesTaken + 1 }, inputs := rest } := by
  simp [step, State.nextInput, hin, State.hexByte?, hp, Pending.bytesLeft, hleft, State.consume, State.takeByte]

/-- With no byte left the taking of a byte waits. -/
theorem step_takeByte_waits (hp : s.pending = some p) (hin : s.inputs = .takeByte :: rest)
    (hdone : p.response.bytes.length ≤ p.bytesTaken) : step s = .next s := by
  simp [step, State.nextInput, hin, State.hexByte?, hp, Pending.bytesLeft, hdone]

/-- A pending response is taken, and joins the responses of the run. -/
theorem step_take (hp : s.pending = some p) (hin : s.inputs = .take :: rest) :
    step s = .next { s with pending := none, inputs := rest, responses := s.responses ++ [p.response] } := by
  simp [step, State.nextInput, hin, State.cmdReady, hp, State.consume, State.takeResponse]

/-- Reset happens at any time (R103). -/
theorem step_reset (hin : s.inputs = .reset :: rest) : step s = .next { s with inputs := rest }.assertReset := by
  simp [step, State.nextInput, hin, State.consume]

/-! ## The response port (R64) -/

/-- The byte on the hex stream is the one at the count of bytes taken. -/
theorem hexByte?_eq (hp : s.pending = some p) : s.hexByte? = p.response.bytes[p.bytesTaken]? := by
  simp [State.hexByte?, hp, Pending.bytesLeft]

/-- The response is valid exactly if no byte is left. -/
theorem rspValid_iff (hp : s.pending = some p) : s.rspValid = true ↔ p.response.bytes.length ≤ p.bytesTaken := by
  simp [State.rspValid, hp, Pending.bytesLeft]

/-- The byte on the stream is marked as the final one exactly if it is the only one left. -/
theorem hexLast_iff (hp : s.pending = some p) :
    s.hexLast = true ↔ p.bytesTaken + 1 = p.response.bytes.length := by
  simp only [State.hexLast, hp, Pending.bytesLeft, beq_iff_eq, List.length_drop]
  omega

end

/-- What a command that is run leaves, legal or not: one fresh response, and everything but the banks as it was. -/
theorem runCommand_frame {s t : State} {c : Command} (h : runCommand c s = .next t) :
    (∃ r, t.pending = some ⟨r, 0⟩) ∧ t.cfg = s.cfg ∧ t.inputs = s.inputs ∧ t.responses = s.responses := by
  obtain ⟨u, r, hrun, ⟨bs, rfl⟩, -⟩ := runCommand_answers c s
  cases hrun.symm.trans h
  exact ⟨⟨r, rfl⟩, rfl, rfl, rfl⟩

/-- Settles O7: the unit runs the command it takes, and the command decodes. -/
theorem stepRunsDecodedCommand : Obligations.StepRunsDecodedCommand := by
  intro s c rest i hp hin hd
  rw [step_command hp hin]
  simp only [runCommand, hd]

/-- Settles O8: every arm of the step answers a next state, the arm of a command because running a command does. -/
theorem everyStepAnswersNext : Obligations.EveryStepAnswersNext := by
  intro s
  unfold step
  split
  next => exact ⟨_, rfl⟩
  next c _ =>
    obtain ⟨t, r, hrun, -⟩ := runCommand_answers c s.consume
    exact ⟨_, hrun⟩
  next => exact ⟨_, rfl⟩
  next => exact ⟨_, rfl⟩
  next => exact ⟨_, rfl⟩

/-- Settles O9: of all that a step can do, only running a command fills the port, only taking the response writes the
host's record, and only that and reset empty the port. -/
theorem oneResponsePerCommandInOrder : Obligations.OneResponsePerCommandInOrder := by
  refine ⟨fun s c rest hp hin => ?_, fun s t h hp ht => ?_, fun s t h => ?_, fun s t p h hp => ?_⟩
  · obtain ⟨u, r, hrun, hbanks, -⟩ := runCommand_answers c { s with inputs := rest }
    obtain ⟨bs, rfl⟩ := hbanks
    exact ⟨_, r, (step_command hp hin).trans hrun, rfl, rfl, rfl⟩
  · rcases step_cases h with
      rfl | ⟨c, rest, -, hin, -⟩ | ⟨p, rest, hp', -⟩ | ⟨p, rest, hp', -⟩ | ⟨rest, -, rfl⟩
    · exact absurd hp ht
    · exact ⟨c, rest, hin⟩
    · simp [hp] at hp'
    · simp [hp] at hp'
    · exact absurd rfl ht
  · rcases step_cases h with
      rfl | ⟨c, rest, -, -, hrun⟩ | ⟨p, rest, -, -, -, rfl⟩ | ⟨p, rest, hp, -, rfl⟩ | ⟨rest, -, rfl⟩
    · exact .inl rfl
    · obtain ⟨-, -, -, hresponses⟩ := runCommand_frame hrun
      exact .inl hresponses
    · exact .inl rfl
    · exact .inr ⟨p, hp, rfl, rfl⟩
    · exact .inl rfl
  · rcases step_cases h with
      rfl | ⟨c, rest, hnone, -⟩ | ⟨q, rest, hq, -, -, rfl⟩ | ⟨q, rest, hq, -, rfl⟩ | ⟨rest, hin, -⟩
    · exact .inl ⟨p, hp, rfl⟩
    · simp [hp] at hnone
    · cases hp.symm.trans hq
      exact .inl ⟨_, rfl, rfl⟩
    · cases hp.symm.trans hq
      exact .inr (.inl rfl)
    · exact .inr (.inr ⟨rest, hin⟩)

/-- Settles O10: the handshake lets no command happen while a response is pending. -/
theorem commandWaitsForResponse : Obligations.CommandWaitsForResponse :=
  fun _ _ _ _ hp hin => step_command_waits hp hin

/-- Settles O11: what stands on the port is read off the count of bytes taken, and each transfer has its step. -/
theorem hostTakesBytesThenResponse : Obligations.HostTakesBytesThenResponse := by
  refine ⟨fun s p rest hp hin => ⟨fun hleft => ?_, fun hdone => ?_⟩, fun s p rest hp hin => step_take hp hin⟩
  · refine ⟨hexByte?_eq hp, ?_, hexLast_iff hp, step_takeByte hp hin hleft⟩
    rw [Bool.eq_false_iff, ne_eq, rspValid_iff hp]
    exact Nat.not_le.2 hleft
  · refine ⟨(rspValid_iff hp).2 hdone, ?_, step_takeByte_waits hp hin hdone⟩
    rw [hexByte?_eq hp, List.getElem?_eq_none hdone]

/-- Settles O12: of all that a step can do, only running a command and reset write a bank, and nothing writes the
parameters. -/
theorem banksChangeOnlyByCommandOrReset : Obligations.BanksChangeOnlyByCommandOrReset := by
  intro s t h
  rcases step_cases h with
    rfl | ⟨c, rest, hp, hin, hrun⟩ | ⟨p, rest, -, -, -, rfl⟩ | ⟨p, rest, -, -, rfl⟩ | ⟨rest, hin, rfl⟩
  · exact ⟨rfl, .inl rfl⟩
  · obtain ⟨-, hcfg, -⟩ := runCommand_frame hrun
    exact ⟨hcfg, .inr (.inl ⟨c, rest, hin, hp⟩)⟩
  · exact ⟨rfl, .inl rfl⟩
  · exact ⟨rfl, .inl rfl⟩
  · exact ⟨rfl, .inr (.inr ⟨rest, hin⟩)⟩

/-! ## Reset (R28, R102, R103) -/

/-- Bank `b` after a reset the host asserts is free and holds free values. -/
theorem State.bank_assertReset (s : State) {b : Nat} (hb : b < s.cfg.nbanks) :
    s.assertReset.bank b = ⟨false, 0, 0, (List.range s.cfg.wmax).map (Config.resetWord s.resets b)⟩ :=
  State.bank_afterReset (Config.resetWord s.resets) hb

/-- Settles O15: the step is the reset, and the banks are those after a reset. -/
theorem assertedResetFreesBanksAndCancels : Obligations.AssertedResetFreesBanksAndCancels := by
  intro s rest hin
  refine ⟨_, step_reset hin, rfl, rfl, rfl, rfl, banksAfterReset_length _ _, fun b hb => ?_⟩
  have hbank := State.bank_assertReset { s with inputs := rest } hb
  simp [State.valid, State.bitlen, State.wcount, hbank]

/-! ## The invariants (R20) -/

/-- Settles O14: the banks after reset are free, and there are `NBANKS` of them. -/
theorem resetMeetsInvariants : Obligations.ResetMeetsInvariants := by
  have hafter : ∀ (cfg : Config) (w : Nat → Nat → Word), cfg.Ok → (State.afterReset cfg w).Inv := fun cfg w hcfg =>
    ⟨hcfg, banksAfterReset_length cfg w, banksAfterReset_ok, by simp [State.afterReset]⟩
  exact ⟨hafter, hafter Config.bfu _ (by decide)⟩

/-- A command the unit takes, legal or not, keeps the invariants. -/
theorem State.Inv.runCommand {s t : State} {c : Command} (hs : s.Inv) (h : runCommand c s = .next t) : t.Inv := by
  unfold Machine.runCommand at h
  split at h
  · exact hs.exec h
  · cases h
    exact hs.withResponse _

/-- A reset the host asserts keeps the invariants: the banks it leaves are those after a reset. -/
theorem State.Inv.assertReset {s : State} (hs : s.Inv) : s.assertReset.Inv := by
  obtain ⟨hcfg, -⟩ := hs
  exact ⟨hcfg, banksAfterReset_length _ _, banksAfterReset_ok, by simp⟩

/-- Settles O16: running a command keeps the invariants because its effect does; the taking of a byte needs a byte that is
left, and the taking of the response empties the port. -/
theorem stepKeepsInvariants : Obligations.StepKeepsInvariants := by
  intro s t hs h
  have hconsumed : ∀ rest, { s with inputs := rest }.Inv := fun _ => hs
  obtain ⟨hcfg, hlen, hbanks, -⟩ := hs
  rcases step_cases h with
    rfl | ⟨c, rest, -, -, hrun⟩ | ⟨p, rest, -, -, hleft, rfl⟩ | ⟨p, rest, -, -, rfl⟩ | ⟨rest, -, rfl⟩
  · exact hconsumed _
  · exact (hconsumed rest).runCommand hrun
  · refine ⟨hcfg, hlen, hbanks, fun q hq => ?_⟩
    cases hq
    exact hleft
  · exact ⟨hcfg, hlen, hbanks, fun q hq => by cases hq⟩
  · exact (hconsumed rest).assertReset

end Sys2Proof.Machine

/-! PROOFS. The word-level forms of `MemRead` and `MemWrite` (spec/20_memory.md R38, R39), and loops that never meet
`IndexError` (spec/41_bit_primitives.md R73). -/

namespace Sys2Proof.Machine

open Sys2Proof.Claims

namespace State

variable {s : State} {b : Nat}

/-- The words of an instance cover its bits: a free bank has no bits, and a valid one has enough words (R20 I1, I3). -/
theorem Inv.bitlen_le_wcount (hs : s.Inv) (hb : b < s.cfg.nbanks) : (s.bitlen b).toNat ≤ s.wcount b * 64 := by
  obtain ⟨-, -, hvalid, -⟩ := hs.bank_ok hb
  cases hv : s.valid b with
  | false => simp [(hs.free_bank hb hv).1]
  | true => exact hvalid hv

/-- Two writes of the words of a bank leave the same state when they leave the same bits. -/
theorem setWords_congr {ws ws' : List Word} (hlen : ws.length = ws'.length) (h : ∀ j, bitOf ws j = bitOf ws' j) :
    s.setWords b ws = s.setWords b ws' := by
  rw [eq_of_bitOf hlen h]

/-- Writing the words of a bank with the bits they have changes nothing. -/
theorem setWords_eq_self {ws : List Word} (hlen : ws.length = (s.bank b).words.length)
    (h : ∀ j, bitOf ws j = bitOf (s.bank b).words j) : s.setWords b ws = s := by
  rw [setWords_congr hlen h, setWords_words]

/-- The loop of SETF inside the destination completes, also where both banks are one: then its offset is 0 (R75). -/
theorem copyBits_isSome {addr bo : Nat} (h : addr + (s.bitlen bo).toNat ≤ (s.bitlen b).toNat)
    (hcover : (s.bitlen b).toNat ≤ 64 * (s.bank b).words.length) :
    (copyBits b addr bo (s.bitlen bo).toNat 0 s).isSome := by
  have hne : b ≠ bo ∨ addr = 0 := by
    by_cases e : b = bo
    · subst e
      exact .inr (by omega)
    · exact .inl e
  obtain ⟨ws, hcopy, -⟩ := copyBits_spec hne (s.bitlen bo).toNat 0 s (by omega) (by omega) hcover
  rw [hcopy, Option.isSome_some]

end State

/-- Settles O17: inside the instance each loop has the result its specification gives. -/
theorem indexErrorNeverOccurs : Obligations.IndexErrorNeverOccurs := by
  intro s b addr n hs hb h
  have hcover := (hs.bank_ok hb).bitlen_le
  refine ⟨fun v => ?_, fun hn => ?_, fun tmp htmp => ?_, fun bo hn => ?_⟩
  · obtain ⟨ws, hwrite, -⟩ := State.memWrite_spec v h hcover
    rw [hwrite, Option.isSome_some]
  · obtain ⟨r, hread, -⟩ := State.memRead_spec hn h
    rw [hread, Option.isSome_some]
  · obtain ⟨r, hextract, -⟩ := State.extractBits_spec (s := s) (b := b) (addr := addr) n 0 tmp (by omega) (by omega)
    rw [hextract, Option.isSome_some]
  · subst hn
    exact State.copyBits_isSome h hcover

/-- Settles O22: both forms have the same bits; a bit of the field in the next word is a bit of the instance, whose words
contain it. -/
theorem wordLevelMemReadIsMemRead : Obligations.WordLevelMemReadIsMemRead := by
  intro s b addr n hpos hn h
  refine ⟨?_, fun hs hb hcross => ?_⟩
  · obtain ⟨r, hread, hbits⟩ := State.memRead_spec hn h
    rw [hread, Option.some_inj]
    apply BitVec.eq_of_getLsbD_eq
    intro j _
    rw [hbits, State.memReadWords_bits s b addr hn]
  · have hwords := hs.bitlen_le_wcount hb
    omega

/-- Settles O23: both forms write the words of the bank with the same bits. Above 64 bits the word-level write leaves the
descriptor and the number of words, so that `MemWrite` clears the rest of the field behind it. -/
theorem wordLevelMemWriteIsMemWrite : Obligations.WordLevelMemWriteIsMemWrite := by
  intro s b addr n v hs hb h
  have hcover : (s.bitlen b).toNat ≤ 64 * (s.bank b).words.length := (hs.bank_ok hb).bitlen_le
  obtain ⟨ws, hwrite, hlen, hbits⟩ := State.memWrite_spec v h hcover
  refine ⟨fun hpos hn => ?_, fun hn => ?_⟩
  · obtain ⟨ws', hwords, hlen', hbits'⟩ := State.memWriteWords_bits s b addr v hpos hn (by omega)
    rw [hwrite, hwords, Option.some_inj]
    exact State.setWords_congr (hlen.trans hlen'.symm) fun j => by rw [hbits, hbits']
  · obtain ⟨low, hwords, hlow, hlowbits⟩ := State.memWriteWords_bits s b addr v (n := 64) (by omega) le_rfl (by omega)
    have hbank := State.bank_setWords_same s b low hlow
    obtain ⟨-, hbitlen, -⟩ := sameDescriptor_setWords hlow b
    obtain ⟨ws', hclear, hlen', hbits'⟩ := State.memWrite_spec (s := s.setWords b low) (b := b) (addr := addr + 64)
      (n := n - 64) 0 (by rw [hbitlen]; omega) (by rw [hbitlen, hbank]; simp only [hlow]; omega)
    rw [hbank] at hlen' hbits'
    rw [hwrite, hwords, hclear, State.setWords_setWords _ _ _ _ hlow, Option.some_inj]
    refine State.setWords_congr (hlen.trans (hlen'.trans hlow).symm) fun j => ?_
    rw [hbits, hbits', hlowbits]
    by_cases hhigh : addr + 64 ≤ j ∧ j < addr + 64 + (n - 64)
    · rw [if_pos (by omega), if_pos hhigh, BitVec.getLsbD_of_ge _ _ (by omega)]
      exact BitVec.getLsbD_zero.symm
    · rw [if_neg hhigh]
      exact if_congr (by omega) rfl rfl

end Sys2Proof.Machine

/-! PROOFS. Laws of the field commands (spec/42_field_insert.md R75, R77; spec/43_field_extract.md R81), and commands that
name an absent bank (spec/30_encoding.md R55, R58). -/

namespace Sys2Proof.Machine

open Sys2Proof.Claims

/-! ## Commands that name an absent bank (R58) -/

/-- The check of the banks is the first of every command. -/
theorem errorOf_of_not_wellFormed {s : State} {i : Instr} (h : ¬ i.WellFormed s.cfg) :
    errorOf s i = some (.illegalCommand, 0) := by
  cases i with
  | setf bt bo | getf bt bo =>
    have habsent : s.cfg.nbanks ≤ bt.toNat ∨ s.cfg.nbanks ≤ bo.toNat := by
      by_contra hexist
      simp only [not_or, Nat.not_le] at hexist
      exact h ⟨hexist.1, fun _ hbo => Option.some.inj hbo ▸ hexist.2⟩
    exact if_pos habsent
  | ldw bt | new bt | free bt | len bt | setfi bt | getfi bt | hex bt =>
    have habsent : s.cfg.nbanks ≤ bt.toNat := by
      by_contra hexist
      exact h ⟨Nat.not_le.1 hexist, fun _ hbo => nomatch hbo⟩
    exact if_pos habsent

/-- Settles O24: the error of such a command is `ILLEGAL_COMMAND`. -/
theorem absentBankIsIllegal : Obligations.AbsentBankIsIllegal :=
  fun _ _ h => answers_of_errorOf (errorOf_of_not_wellFormed h)

/-! ## What a successful command was given -/

/-- A command that is answered `OK` has no error, and has its effect. -/
theorem effect_of_succeeded {s t : State} {i : Instr} {d : Word} {bs : List Byte} (hs : s.Inv)
    (h : exec i s = .next t) (hsucc : Succeeded t d bs) : errorOf s i = none ∧ Effect s t i := by
  rcases exec_cases hs h with ⟨st, d', he, rfl⟩ | heffect
  · cases hsucc
    exact absurd rfl (errorOf_ne_ok he)
  · exact heffect

/-- The check for an instance and one check behind it are passed exactly if there is an instance and the second holds. -/
theorem validAndCheck_eq_none {valid : Bool} {c : Prop} [Decidable c] {x y : Status × Word} :
    (if valid = false then some x else if c then some y else none) = none ↔ valid = true ∧ ¬ c := by
  cases valid <;> simp

/-! ## SETF of a bank into itself (R75) -/

/-- Settles O30: at offset 0 every bit of the instance is written with itself, and at any other offset the field, as long
as the instance, ends outside it. -/
theorem setfOfABankIntoItself : Obligations.SetfOfABankIntoItself := by
  intro s bt a hs hb hv
  refine ⟨?_, fun ha => ?_⟩
  · rintro rfl
    have hin : (0 : Word).toNat + (s.bitlen bt.toNat).toNat ≤ (s.bitlen bt.toNat).toNat := by simp
    obtain ⟨ws, hexec, hlen, hbits⟩ := exec_setf hs hb hb hv hv hin
    have hself : s.setWords bt.toNat ws = s := State.setWords_eq_self hlen fun j => by simp [hbits]
    rw [hself] at hexec
    exact hexec
  · have hpos : a.toNat ≠ 0 := fun h0 => ha (BitVec.eq_of_toNat_eq h0)
    refine answers_of_errorOf ?_
    rw [errorOf_setf hb hb, if_neg (by simp [hv]), if_pos (by omega)]

/-! ## SETFI and then GETFI of the same range (R77) -/

/-- `v & mask(n)` by the two cases of R77. -/
theorem and_mask_eq_ite (v : Word) {n : Nat} (hn : n ≤ 64) :
    v &&& mask n = if n = 64 then v else v &&& (BitVec.ofNat 64 (2 ^ n) - 1) := by
  split
  next h =>
    have hones : mask n = BitVec.allOnes 64 := if_neg (by omega)
    rw [hones, BitVec.and_allOnes]
  next h => rw [two_pow_sub_one_eq_mask (by omega)]

/-- After a SETFI that is answered `OK` the bank is valid, contains the range, and `MemRead` of the range answers the low
bits of the value. -/
theorem memRead_after_setfi {s t : State} {bt : BankIx} {a n v : Word} (hs : s.Inv) (hn : n.toNat ≤ 64)
    (h : exec (.setfi bt a n v) s = .next t) (hsucc : Succeeded t 0 []) :
    bt.toNat < t.cfg.nbanks ∧ t.valid bt.toNat = true ∧ a.toNat + n.toNat ≤ (t.bitlen bt.toNat).toNat ∧
      t.memRead bt.toNat a.toNat n.toNat = some (v &&& mask n.toNat) := by
  obtain ⟨hnone, ws, rfl, hlen, hbits⟩ := effect_of_succeeded hs h hsucc
  obtain ⟨hb, -⟩ := wellFormed_of_errorOf hnone
  rw [errorOf_setfi (bt := bt) hb, validAndCheck_eq_none] at hnone
  obtain ⟨hv, hin⟩ := hnone
  obtain ⟨hvalid, hbitlen, -⟩ :=
    sameDescriptor_withResponse (sameDescriptor_setWords hlen bt.toNat) (okData 0)
  have hin' : a.toNat + n.toNat ≤ (((s.setWords bt.toNat ws).withResponse (okData 0)).bitlen bt.toNat).toNat := by
    rw [hbitlen]
    exact Nat.not_lt.1 hin
  obtain ⟨r, hread, hr⟩ := State.memRead_spec hn hin'
  refine ⟨hb, hvalid.trans hv, hin', hread.trans (congrArg some ?_)⟩
  apply BitVec.eq_of_getLsbD_eq
  intro i _
  rw [hr, BitVec.getLsbD_and, getLsbD_mask _ hn, State.withResponse_bank, State.bank_setWords_same _ _ _ hlen, hbits]
  by_cases hi : i < n.toNat
  · rw [if_pos (by omega), Nat.add_sub_cancel_left, Bool.and_comm]
  · simp [hi]

/-- Settles O32: GETFI answers what `MemRead` answers after the write. -/
theorem setfiThenGetfiRoundTrip : Obligations.SetfiThenGetfiRoundTrip := by
  intro s t bt a n v hs hn h hsucc
  obtain ⟨hb, hv, hin, hread⟩ := memRead_after_setfi hs hn h hsucc
  rw [← and_mask_eq_ite v hn]
  exact getfi_answers_memRead hb hv hn hin hread

/-! ## GETF and then GETFI of source and destination (R81) -/

/-- `MemRead` of two fields with the same bits answers the same. -/
theorem State.memRead_congr {s s' : State} {b b' addr addr' n : Nat} (hn : n ≤ 64)
    (h : addr + n ≤ (s.bitlen b).toNat) (h' : addr' + n ≤ (s'.bitlen b').toNat)
    (hbits : ∀ i, i < n → s.bit b (addr + i) = s'.bit b' (addr' + i)) :
    s.memRead b addr n = s'.memRead b' addr' n := by
  obtain ⟨r, hread, hr⟩ := State.memRead_spec hn h
  obtain ⟨r', hread', hr'⟩ := State.memRead_spec hn h'
  rw [hread, hread', Option.some_inj]
  apply BitVec.eq_of_getLsbD_eq
  intro i _
  rw [hr, hr']
  by_cases hi : i < n
  · rw [← State.bit_eq, ← State.bit_eq, hbits i hi]
  · simp [hi]

/-- A GETF that is answered `OK` was given a valid bank that contains the field, and leaves an instance whose bits are
those of the field. -/
theorem committed_after_getf {s t : State} {bt bo : BankIx} {a n : Word} (hs : s.Inv)
    (h : exec (.getf bt bo a n) s = .next t) (hsucc : Succeeded t 0 []) :
    (bt.toNat < s.cfg.nbanks ∧ s.valid bt.toNat = true ∧ a.toNat + n.toNat ≤ (s.bitlen bt.toNat).toNat) ∧
      bo.toNat < s.cfg.nbanks ∧ OnlyBank bo.toNat s t ∧ t.valid bo.toNat = true ∧ t.bitlen bo.toNat = n ∧
      ∀ i, i < n.toNat → t.bit bo.toNat i = s.bit bt.toNat (a.toNat + i) := by
  obtain ⟨hnone, -⟩ := effect_of_succeeded hs h hsucc
  obtain ⟨hb, hother⟩ := wellFormed_of_errorOf hnone
  have ho : bo.toNat < s.cfg.nbanks := hother bo rfl
  rw [errorOf_getf (bt := bt) hb ho, validAndCheck_eq_none] at hnone
  obtain ⟨hv, hout⟩ := hnone
  have hin := Nat.not_lt.1 hout
  obtain ⟨-, -, -, hextracts⟩ := getfExtractsTheField s bt bo a n hs hb ho
  obtain ⟨u, hexec, -, honly, hvalid, hbitlen, -, hbits, -⟩ := hextracts hv hin
  cases hexec.symm.trans h
  refine ⟨⟨hb, hv, hin⟩, ho, honly, hvalid, hbitlen, fun i hi => ?_⟩
  rw [hbits i (by omega), decide_eq_true hi, Bool.true_and]

/-- Settles O35: both GETFI read the same bits, those of the field in the source, which GETF has left as it was. -/
theorem extractionConsistency : Obligations.ExtractionConsistency := by
  intro s t bt bo a n j m hs hne h hsucc hm hj
  obtain ⟨⟨hb, hv, hin⟩, ho, ⟨hcfg, -, -, -, -, hothers⟩, hvo, hbitlen, hbits⟩ := committed_after_getf hs h hsucc
  have hsource : t.bank bt.toNat = s.bank bt.toNat := hothers _ fun e => hne (BitVec.eq_of_toNat_eq e.symm)
  obtain ⟨hvt, hlt, -⟩ := sameDescriptor_of_bank_eq hsource
  have hadd : (a + j).toNat = a.toNat + j.toNat := by
    have hlen := (s.bitlen bt.toNat).isLt
    rw [BitVec.toNat_add, Nat.mod_eq_of_lt (by omega)]
  have hino : j.toNat + m.toNat ≤ (t.bitlen bo.toNat).toNat := by rw [hbitlen]; exact hj
  have hint : (a + j).toNat + m.toNat ≤ (t.bitlen bt.toNat).toNat := by rw [hlt, hadd]; omega
  obtain ⟨r, hread, -⟩ := State.memRead_spec hm hino
  have hread' : t.memRead bt.toNat (a + j).toNat m.toNat = some r := by
    rw [← hread]
    refine State.memRead_congr hm hint hino fun i hi => ?_
    rw [hbits _ (by omega), State.bit_eq, State.bit_eq, hsource, hadd, Nat.add_assoc]
  exact ⟨r, getfi_answers_memRead (hcfg ▸ ho) hvo hm hino hread,
    getfi_answers_memRead (hcfg ▸ hb) (hvt.trans hv) hm hint hread'⟩

end Sys2Proof.Machine

/-! PROOFS. The hex string (spec/44_hex_render.md R84, R85) and the numbers of the statuses (spec/60_exceptions.md R86). -/

namespace Sys2Proof.Machine

open Sys2Proof.Claims

/-- Settles O37: the sixteen digits are evaluated. -/
theorem hexCharCodes : Obligations.HexCharCodes := by
  unfold Obligations.HexCharCodes
  decide

/-! ## The value of the digits (R85 (c)) -/

/-- The digit a hexadecimal character stands for. -/
def hexDigit (c : Byte) : Nat := if c.toNat < 0x3A then c.toNat - 0x30 else c.toNat - 0x61 + 10

theorem hexDigit_hexChar (n : BitVec 4) : hexDigit (hexChar n) = n.toNat := hexChar_value n

/-- The value of a string of characters is that of their digits, the last one least significant. -/
theorem hexValue_eq_ofDigits (bytes : List Byte) :
    hexValue bytes = Nat.ofDigits 16 (bytes.reverse.map hexDigit) := by
  rw [Nat.ofDigits_eq_foldr, List.foldr_map, List.foldr_reverse]
  simp only [Nat.cast_id, Nat.add_comm (hexDigit _), Nat.mul_comm 16]
  rfl

/-- The lowest `n` base-16 digits of a number give it modulo `16^n`. -/
theorem ofDigits_range (x n : Nat) : Nat.ofDigits 16 ((List.range n).map fun d => x / 16 ^ d % 16) = x % 16 ^ n := by
  induction n with
  | zero => simp [Nat.mod_one]
  | succ n ih => simp [List.range_succ, Nat.ofDigits_append, ih, Nat.mod_pow_succ]

/-- A word is the value of its sixteen characters. -/
theorem hexValue_hexWord (w : Word) : hexValue (hexWord w) = w.toNat := by
  have hdigits : (hexWord w).reverse.map hexDigit = (List.range 16).map fun d => w.toNat / 16 ^ d % 16 := by
    rw [hexWord, ← List.map_reverse, List.reverse_reverse, List.map_map]
    refine List.map_congr_left fun d _ => ?_
    rw [Function.comp_apply, hexDigit_hexChar, BitVec.extractLsb'_toNat, Nat.shiftRight_eq_div_pow, Nat.pow_mul]
  rw [hexValue_eq_ofDigits, hdigits, ofDigits_range]
  exact Nat.mod_eq_of_lt w.isLt

/-! ## The string of a bank (R85) -/

/-- Every character of the string is the character of a digit. -/
theorem State.eq_hexChar_of_mem_hexString {s : State} {b n : Nat} {c : Byte} (h : c ∈ s.hexString b n) :
    ∃ d, c = hexChar d := by
  simp only [State.hexString, hexWord, List.mem_flatMap, List.mem_map] at h
  obtain ⟨k, -, d, -, rfl⟩ := h
  exact ⟨_, rfl⟩

/-- The string depends on the bank alone. -/
theorem State.hexString_congr {s t : State} {b : Nat} (h : t.bank b = s.bank b) (n : Nat) :
    t.hexString b n = s.hexString b n := by
  simp only [State.hexString, State.word, h]

/-- HEX is answered `OK` with a string only on a valid bank, and with the string of its words. -/
theorem of_answers_hex {s : State} {bt : BankIx} {bytes : List Byte} (h : Answers (.hex bt) s ⟨.ok, 0, bytes⟩) :
    bt.toNat < s.cfg.nbanks ∧ s.valid bt.toNat = true ∧ bytes = s.hexString bt.toNat (s.wcount bt.toNat) := by
  cases he : errorOf s (.hex bt) with
  | some e =>
    obtain ⟨st, d⟩ := e
    cases h.symm.trans (exec_error he)
    exact absurd rfl (errorOf_ne_ok he)
  | none =>
    obtain ⟨hb, -⟩ := wellFormed_of_errorOf he
    rw [errorOf_hex (bt := bt) hb] at he
    have hv : s.valid bt.toNat = true := by simpa using he
    cases h.symm.trans (answers_hex hb hv)
    exact ⟨hb, hv, rfl⟩

/-- Settles O38: the string is that of the words of the bank, whose sixteen characters each have the word as their
value. -/
theorem hexStringLaws : Obligations.HexStringLaws := by
  intro s t bt bytes h
  obtain ⟨hb, hv, rfl⟩ := of_answers_hex h
  refine ⟨State.hexString_length s _ _, fun c hc => ?_, fun k hk => ?_, fun hcfg hbank => ?_⟩
  · obtain ⟨d, rfl⟩ := State.eq_hexChar_of_mem_hexString hc
    exact hexChar_range d
  · rw [State.hexString_word s _ hk, hexValue_hexWord]
  · obtain ⟨hvt, -, hwt⟩ := sameDescriptor_of_bank_eq hbank
    have hanswer := answers_hex (hcfg ▸ hb) (hvt.trans hv)
    rwa [hwt, State.hexString_congr hbank] at hanswer

/-- Settles O39: the bound is checked for each status. -/
theorem statusNumbers : Obligations.StatusNumbers :=
  ⟨rfl, rfl, rfl, rfl, rfl, rfl, rfl, fun st => by cases st <;> decide⟩

end Sys2Proof.Machine

/-! PROOFS. The frame of every command (spec/20_memory.md R48), and what a command depends on (spec/10_state.md R14, R23;
spec/70_reset_and_hazards.md R112). -/

namespace Sys2Proof.Machine

open Sys2Proof.Claims

/-! ## The frame of every command (R48) -/

section

variable {s t : State} {i : Instr}

/-- A successful GETF commits words that fit the receiving bank, because every bank has as many words as the source. -/
theorem Effect.commits {bt bo : BankIx} {a n : Word} (he : Effect s t (.getf bt bo a n)) (hs : s.Inv)
    (hn : errorOf s (.getf bt bo a n) = none) :
    ∃ tmp, t = (s.commitInstance bo.toNat n tmp).withResponse (okData 0) ∧ tmp.length = wordsFor n.toNat ∧
      tmp.length ≤ (s.bank bo.toNat).words.length ∧ a.toNat + n.toNat ≤ (s.bitlen bt.toNat).toNat ∧
      ∀ j, bitOf tmp j = (decide (j < n.toNat) && bitOf (s.bank bt.toNat).words (a.toNat + j)) := by
  obtain ⟨hb, hother⟩ := wellFormed_of_errorOf hn
  have ho : bo.toNat < s.cfg.nbanks := hother bo rfl
  rw [errorOf_getf (bt := bt) hb ho, validAndCheck_eq_none] at hn
  obtain ⟨-, hout⟩ := hn
  have hin := Nat.not_lt.1 hout
  obtain ⟨tmp, rfl, hlen, hbits⟩ := he
  refine ⟨tmp, ?_, hlen, hlen ▸ hs.wordsFor_le hb ho hin, hin, hbits⟩
  rw [State.commitInstance, hlen]

/-- A successful command leaves everything but the bank it writes and the response port. -/
theorem Effect.onlyBank (he : Effect s t i) :
    (∃ b, writtenBank i = some b ∧ OnlyBank b s t) ∨ ∃ r, t = s.withResponse r := by
  cases i with
  | ldw bt a v =>
    subst he
    exact .inl ⟨_, rfl, onlyBank_withResponse (onlyBank_setWords s _ _) _⟩
  | new bt | free bt =>
    subst he
    exact .inl ⟨_, rfl, onlyBank_withResponse (onlyBank_setBank s _ _) _⟩
  | setf bt | setfi bt =>
    obtain ⟨ws, rfl, -⟩ := he
    exact .inl ⟨_, rfl, onlyBank_withResponse (onlyBank_setWords s _ ws) _⟩
  | getf bt bo =>
    obtain ⟨tmp, rfl, -⟩ := he
    exact .inl ⟨_, rfl, onlyBank_withResponse (onlyBank_setBank s _ _) _⟩
  | len | hex => exact .inr ⟨_, he⟩
  | getfi =>
    obtain ⟨r, rfl, -⟩ := he
    exact .inr ⟨_, rfl⟩

/-- A response alone is within the frame of every command. -/
theorem frameOf_withResponse (s : State) (i : Instr) (r : Response) : FrameOf s (s.withResponse r) i := by
  cases i with
  | ldw | setf | setfi => exact ⟨⟨rfl, rfl, rfl⟩, fun _ _ => rfl⟩
  | new | free => exact fun _ => rfl
  | getf => exact fun _ _ => rfl
  | len | getfi | hex => exact rfl

/-- A successful command stays within its frame. -/
theorem Effect.frameOf (he : Effect s t i) (hs : s.Inv) (hn : errorOf s i = none) : FrameOf s t i := by
  obtain ⟨hb, hother⟩ := wellFormed_of_errorOf hn
  cases i with
  | ldw bt a v =>
    subst he
    exact ⟨sameDescriptor_withResponse (sameDescriptor_setWords List.length_set _) _,
      fun k hk => State.word_setWord_other hk⟩
  | new bt | free bt =>
    subst he
    exact State.word_setDescriptor (hs.lt_length hb)
  | setf bt bo a =>
    obtain ⟨ws, rfl, hlen, hbits⟩ := he
    obtain ⟨-, hframe⟩ := State.bit_setWords_field (bitOf (s.bank bo.toNat).words) hlen hbits
    exact ⟨sameDescriptor_withResponse (sameDescriptor_setWords hlen _) _, hframe⟩
  | setfi bt a n v =>
    obtain ⟨ws, rfl, hlen, hbits⟩ := he
    obtain ⟨-, hframe⟩ := State.bit_setWords_field v.getLsbD hlen hbits
    exact ⟨sameDescriptor_withResponse (sameDescriptor_setWords hlen _) _, hframe⟩
  | getf bt bo a n =>
    obtain ⟨tmp, rfl, hlen, hfit, -, -⟩ := he.commits hs hn
    exact fun k hk => State.word_commitInstance (hs.lt_length (hother bo rfl)) hfit (hlen.trans_le hk)
  | len | hex =>
    subst he
    exact frameOf_withResponse s _ _
  | getfi =>
    obtain ⟨r, rfl, -⟩ := he
    exact frameOf_withResponse s _ _

end

/-- Settles O46: an error leaves nothing but its response, and an effect stays within its frame. -/
theorem frameOfEveryCommand : Obligations.FrameOfEveryCommand := by
  intro s t i hs h
  rcases exec_cases hs h with ⟨st, d, -, rfl⟩ | ⟨hn, he⟩
  · exact ⟨rfl, rfl, rfl, rfl, rfl, fun _ _ => rfl, frameOf_withResponse s i _⟩
  · have hframe := he.frameOf hs hn
    rcases he.onlyBank with ⟨b, hw, hcfg, hinputs, hresponses, hresets, hlen, hbanks⟩ | ⟨r, rfl⟩
    · refine ⟨hcfg, hinputs, hresponses, hresets, hlen, fun b' hb' => hbanks b' ?_, hframe⟩
      rintro rfl
      exact hb' hw
    · exact ⟨rfl, rfl, rfl, rfl, rfl, fun _ _ => rfl, hframe⟩

/-! ## Two runs of one command -/

/-- Two runs end with the same response, and write either no bank or the same one, with contents related by `R`. -/
def SameWrite (R : Bank → Bank → Prop) (s s' t t' : State) : Prop :=
  ∃ r, (t = s.withResponse r ∧ t' = s'.withResponse r) ∨
    ∃ b bk bk', R bk bk' ∧ t = (s.setBank b bk).withResponse r ∧ t' = (s'.setBank b bk').withResponse r

section

variable {R : Bank → Bank → Prop} {s s' t t' : State} {i : Instr}

theorem SameWrite.pending (h : SameWrite R s s' t t') : t.pending = t'.pending := by
  obtain ⟨r, ⟨rfl, rfl⟩ | ⟨b, bk, bk', -, rfl, rfl⟩⟩ := h <;> rfl

theorem SameWrite.cfg_eq (h : SameWrite R s s' t t') : t.cfg = s.cfg ∧ t'.cfg = s'.cfg := by
  obtain ⟨r, ⟨rfl, rfl⟩ | ⟨b, bk, bk', -, rfl, rfl⟩⟩ := h <;> exact ⟨rfl, rfl⟩

theorem SameWrite.length_eq (h : SameWrite R s s' t t') :
    t.banks.length = s.banks.length ∧ t'.banks.length = s'.banks.length := by
  obtain ⟨r, ⟨rfl, rfl⟩ | ⟨b, bk, bk', -, rfl, rfl⟩⟩ := h
  · exact ⟨rfl, rfl⟩
  · exact ⟨List.length_set, List.length_set⟩

/-- Banks that are related before are related after. -/
theorem SameWrite.bank (h : SameWrite R s s' t t') (hlen : s.banks.length = s'.banks.length) {b : Nat}
    (hb : R (s.bank b) (s'.bank b)) : R (t.bank b) (t'.bank b) := by
  obtain ⟨r, ⟨rfl, rfl⟩ | ⟨b', bk, bk', hbk, rfl, rfl⟩⟩ := h
  · exact hb
  · rw [State.withResponse_bank, State.withResponse_bank, State.bank_setBank, State.bank_setBank, ← hlen]
    split
    · exact hbk
    · exact hb

/-- Two runs with the same error answer it alike; for the others the effects decide. -/
theorem exec_sameWrite (hs : s.Inv) (hs' : s'.Inv) (herror : errorOf s i = errorOf s' i)
    (heffect : errorOf s i = none → errorOf s' i = none → Effect s t i → Effect s' t' i → SameWrite R s s' t t')
    (h : exec i s = .next t) (h' : exec i s' = .next t') : SameWrite R s s' t t' := by
  rcases exec_cases hs h with ⟨st, d, he, rfl⟩ | ⟨hn, he⟩ <;>
    rcases exec_cases hs' h' with ⟨st', d', he', rfl⟩ | ⟨hn', he'⟩
  · cases he.symm.trans (herror.trans he')
    exact ⟨_, .inl ⟨rfl, rfl⟩⟩
  · cases he.symm.trans (herror.trans hn')
  · cases hn.symm.trans (herror.trans he')
  · exact heffect hn hn' he he'

/-- The error of a command depends on the parameters and on the descriptors of the banks it names. -/
theorem errorOf_congr (hcfg : s.cfg = s'.cfg) (h : ∀ b, namesBank i b → SameDescriptor b s s') :
    errorOf s i = errorOf s' i := by
  cases i with
  | ldw bt | new bt | free bt | len bt | setfi bt | getf bt | getfi bt | hex bt =>
    obtain ⟨hvalid, hbitlen, -⟩ := h bt.toNat (.inl rfl)
    simp only [errorOf, hcfg, hvalid, hbitlen]
  | setf bt bo =>
    obtain ⟨hvalid, hbitlen, -⟩ := h bt.toNat (.inl rfl)
    obtain ⟨hvalidO, hbitlenO, -⟩ := h bo.toNat (.inr ⟨bo, rfl, rfl⟩)
    simp only [errorOf, hcfg, hvalid, hbitlen, hvalidO, hbitlenO]

end

/-! ## A command depends on the banks it names alone (R14) -/

/-- Two runs of a command on states that agree on the banks it names write the same. -/
theorem Effect.sameWrite_of_bank_eq {s s' t t' : State} {i : Instr} (he : Effect s t i) (he' : Effect s' t' i)
    (hbanks : ∀ b, namesBank i b → s.bank b = s'.bank b) : SameWrite Eq s s' t t' := by
  cases i with
  | ldw bt | new bt | free bt =>
    have hbt : s.bank bt.toNat = s'.bank bt.toNat := hbanks _ (.inl rfl)
    subst he he'
    exact ⟨_, .inr ⟨_, _, _, by rw [hbt], rfl, rfl⟩⟩
  | len bt =>
    have hbt : s.bank bt.toNat = s'.bank bt.toNat := hbanks _ (.inl rfl)
    subst he he'
    refine ⟨_, .inl ⟨rfl, ?_⟩⟩
    rw [State.bitlen, State.bitlen, hbt]
  | setf bt bo =>
    have hbt : s.bank bt.toNat = s'.bank bt.toNat := hbanks _ (.inl rfl)
    have hbo : s.bank bo.toNat = s'.bank bo.toNat := hbanks _ (.inr ⟨bo, rfl, rfl⟩)
    obtain ⟨ws, rfl, hlen, hbits⟩ := he
    obtain ⟨ws', rfl, hlen', hbits'⟩ := he'
    rw [State.bitlen, hbt, hbo] at hbits
    have hws : ws = ws' := eq_of_bitOf (by rw [hlen, hlen', hbt]) fun j => (hbits j).trans (hbits' j).symm
    exact ⟨_, .inr ⟨_, _, _, by rw [hbt, hws], rfl, rfl⟩⟩
  | setfi bt =>
    have hbt : s.bank bt.toNat = s'.bank bt.toNat := hbanks _ (.inl rfl)
    obtain ⟨ws, rfl, hlen, hbits⟩ := he
    obtain ⟨ws', rfl, hlen', hbits'⟩ := he'
    rw [hbt] at hbits
    have hws : ws = ws' := eq_of_bitOf (by rw [hlen, hlen', hbt]) fun j => (hbits j).trans (hbits' j).symm
    exact ⟨_, .inr ⟨_, _, _, by rw [hbt, hws], rfl, rfl⟩⟩
  | getf bt bo =>
    have hbt : s.bank bt.toNat = s'.bank bt.toNat := hbanks _ (.inl rfl)
    have hbo : s.bank bo.toNat = s'.bank bo.toNat := hbanks _ (.inr ⟨bo, rfl, rfl⟩)
    obtain ⟨tmp, rfl, hlen, hbits⟩ := he
    obtain ⟨tmp', rfl, hlen', hbits'⟩ := he'
    rw [hbt] at hbits
    have htmp : tmp = tmp' := eq_of_bitOf (hlen.trans hlen'.symm) fun j => (hbits j).trans (hbits' j).symm
    exact ⟨_, .inr ⟨_, _, _, by rw [hbo, htmp], rfl, rfl⟩⟩
  | getfi bt =>
    have hbt : s.bank bt.toNat = s'.bank bt.toNat := hbanks _ (.inl rfl)
    obtain ⟨r, rfl, hbits⟩ := he
    obtain ⟨r', rfl, hbits'⟩ := he'
    rw [hbt] at hbits
    have hr : r = r' := BitVec.eq_of_getLsbD_eq fun j _ => (hbits j).trans (hbits' j).symm
    exact ⟨_, .inl ⟨rfl, by rw [hr]⟩⟩
  | hex bt =>
    have hbt : s.bank bt.toNat = s'.bank bt.toNat := hbanks _ (.inl rfl)
    subst he he'
    refine ⟨_, .inl ⟨rfl, ?_⟩⟩
    rw [State.hexString_congr hbt, State.wcount, State.wcount, hbt]

/-- Settles O47: both runs have the same error or write the same, so a bank they agree on before they agree on after. -/
theorem banksAreIndependent : Obligations.BanksAreIndependent := by
  intro s s' t t' i hs hs' hcfg hbanks h h'
  have herror : errorOf s i = errorOf s' i :=
    errorOf_congr hcfg fun b hb => sameDescriptor_of_bank_eq (hbanks b hb).symm
  have hwrite : SameWrite Eq s s' t t' :=
    exec_sameWrite hs hs' herror (fun _ _ he he' => he.sameWrite_of_bank_eq he' hbanks) h h'
  have hlen : s.banks.length = s'.banks.length := by
    obtain ⟨-, hl, -⟩ := hs
    obtain ⟨-, hl', -⟩ := hs'
    rw [hl, hl', hcfg]
  exact ⟨hwrite.pending, fun b hb => hwrite.bank hlen (hbanks b hb)⟩

/-! ## Padding and residual words are not read (R23) -/

/-- Two banks that show the same instance: the same descriptor, and the same bits below its length. -/
def Bank.SameInstance (bk bk' : Bank) : Prop :=
  bk'.valid = bk.valid ∧ bk'.bitlen = bk.bitlen ∧ bk'.wcount = bk.wcount ∧
    ∀ j, j < bk.bitlen.toNat → bitOf bk.words j = bitOf bk'.words j

/-- A field inside the instance has the same bits in both banks. -/
theorem Bank.SameInstance.field_bits {bk bk' : Bank} (h : bk.SameInstance bk') {addr n : Nat}
    (hin : addr + n ≤ bk.bitlen.toNat) (j : Nat) :
    (decide (j < n) && bitOf bk.words (addr + j)) = (decide (j < n) && bitOf bk'.words (addr + j)) := by
  obtain ⟨-, -, -, hbits⟩ := h
  by_cases hj : j < n
  · rw [hbits _ (by omega)]
  · simp [hj]

theorem Bank.SameInstance.sameDescriptor {s s' : State} {b : Nat} (h : (s.bank b).SameInstance (s'.bank b)) :
    SameDescriptor b s s' := by
  obtain ⟨hvalid, hbitlen, hwcount, -⟩ := h
  exact ⟨hvalid, hbitlen, hwcount⟩

/-- Two states show the same instances when their banks do. -/
theorem sameInstances_iff {s s' : State} :
    SameInstances s s' ↔
      s.cfg = s'.cfg ∧ s.banks.length = s'.banks.length ∧ ∀ b, (s.bank b).SameInstance (s'.bank b) := by
  simp only [SameInstances, SameDescriptor, Bank.SameInstance, State.bit_eq, State.valid, State.bitlen, State.wcount,
    and_assoc]

/-- A successful LDW was given a free bank (R67). -/
theorem valid_eq_false_of_errorOf_ldw {s : State} {bt : BankIx} {a v : Word} (h : errorOf s (.ldw bt a v) = none) :
    s.valid bt.toNat = false := by
  simp only [errorOf] at h
  split_ifs at h with _ hv
  exact Bool.eq_false_iff.2 hv

/-- Two runs of a command but HEX and NEW on states that show the same instances write the same instance. -/
theorem Effect.sameWrite_of_sameInstance {s s' t t' : State} {i : Instr} (he : Effect s t i) (he' : Effect s' t' i)
    (hs : s.Inv) (hs' : s'.Inv) (hn : errorOf s i = none) (hn' : errorOf s' i = none)
    (hbanks : ∀ b, (s.bank b).SameInstance (s'.bank b)) (hhex : i.opcode ≠ .hex) (hnew : i.opcode ≠ .new) :
    SameWrite Bank.SameInstance s s' t t' := by
  obtain ⟨hb, -⟩ := wellFormed_of_errorOf hn
  cases i with
  | new => exact absurd rfl hnew
  | hex => exact absurd rfl hhex
  | ldw bt a v =>
    obtain ⟨hvalid, hbitlen, hwcount, -⟩ := hbanks bt.toNat
    obtain ⟨hempty, -⟩ := hs.free_bank hb (valid_eq_false_of_errorOf_ldw hn)
    have hempty' : (s.bank bt.toNat).bitlen = 0 := hempty
    subst he he'
    refine ⟨_, .inr ⟨_, _, _, ?_, rfl, rfl⟩⟩
    refine ⟨hvalid, hbitlen, hwcount, fun j hj => ?_⟩
    simp [hempty'] at hj
  | free bt =>
    subst he he'
    refine ⟨_, .inr ⟨_, _, _, ?_, rfl, rfl⟩⟩
    exact ⟨rfl, rfl, rfl, fun j hj => absurd hj (Nat.not_lt_zero j)⟩
  | len bt =>
    obtain ⟨-, hbitlen, -⟩ := hbanks bt.toNat
    subst he he'
    exact ⟨_, .inl ⟨rfl, congrArg (fun d => s'.withResponse (okData d)) hbitlen⟩⟩
  | setf bt bo a =>
    obtain ⟨hvalid, hbitlen, hwcount, hbits_bt⟩ := hbanks bt.toNat
    obtain ⟨-, hbitlenO, -, hbits_bo⟩ := hbanks bo.toNat
    obtain ⟨ws, rfl, -, hbits⟩ := he
    obtain ⟨ws', rfl, -, hbits'⟩ := he'
    rw [show s'.bitlen bo.toNat = s.bitlen bo.toNat from hbitlenO] at hbits'
    refine ⟨_, .inr ⟨_, _, _, ?_, rfl, rfl⟩⟩
    refine ⟨hvalid, hbitlen, hwcount, fun j hj => ?_⟩
    rw [hbits, hbits']
    split
    next hfield =>
      obtain ⟨hlow, hhigh⟩ := hfield
      exact hbits_bo _ (Nat.sub_lt_left_of_lt_add hlow hhigh)
    next => exact hbits_bt j hj
  | setfi bt a n v =>
    obtain ⟨hvalid, hbitlen, hwcount, hbits_bt⟩ := hbanks bt.toNat
    obtain ⟨ws, rfl, -, hbits⟩ := he
    obtain ⟨ws', rfl, -, hbits'⟩ := he'
    refine ⟨_, .inr ⟨_, _, _, ?_, rfl, rfl⟩⟩
    refine ⟨hvalid, hbitlen, hwcount, fun j hj => ?_⟩
    rw [hbits, hbits']
    split
    · rfl
    · exact hbits_bt j hj
  | getf bt bo a n =>
    obtain ⟨tmp, rfl, hlen, hfit, hin, hbits⟩ := he.commits hs hn
    obtain ⟨tmp', rfl, hlen', hfit', -, hbits'⟩ := he'.commits hs' hn'
    refine ⟨_, .inr ⟨_, _, _, ?_, rfl, rfl⟩⟩
    refine ⟨rfl, rfl, hlen'.trans hlen.symm, fun j hj => ?_⟩
    change j < n.toNat at hj
    have hcommitted : j < 64 * wordsFor n.toNat := by unfold wordsFor; omega
    rw [State.bitOf_overlay hfit, State.bitOf_overlay hfit', if_pos (by rwa [hlen]), if_pos (by rwa [hlen']), hbits,
      hbits', (hbanks bt.toNat).field_bits hin]
  | getfi bt a n =>
    obtain ⟨r, rfl, hbits⟩ := he
    obtain ⟨r', rfl, hbits'⟩ := he'
    rw [errorOf_getfi (bt := bt) hb, validAndCheck_eq_none] at hn
    have hin : a.toNat + n.toNat ≤ (s.bitlen bt.toNat).toNat := by omega
    have hr : r = r' := by
      apply BitVec.eq_of_getLsbD_eq
      intro j _
      rw [hbits, hbits', (hbanks bt.toNat).field_bits hin]
    exact ⟨_, .inl ⟨rfl, by rw [hr]⟩⟩

/-- Settles O48: both runs have the same error or write the same instance, so they show the same instances after. -/
theorem paddingIsNeverRead : Obligations.PaddingIsNeverRead := by
  intro s s' t t' i hs hs' hsame hhex hnew h h'
  obtain ⟨hcfg, hlen, hbanks⟩ := sameInstances_iff.1 hsame
  have herror : errorOf s i = errorOf s' i := errorOf_congr hcfg fun b _ => (hbanks b).sameDescriptor
  have hwrite : SameWrite Bank.SameInstance s s' t t' := exec_sameWrite hs hs' herror
    (fun hn hn' he he' => he.sameWrite_of_sameInstance he' hs hs' hn hn' hbanks hhex hnew) h h'
  obtain ⟨hcfgt, hcfgt'⟩ := hwrite.cfg_eq
  obtain ⟨hlent, hlent'⟩ := hwrite.length_eq
  refine ⟨hwrite.pending, sameInstances_iff.2 ⟨?_, ?_, fun b => hwrite.bank hlen (hbanks b)⟩⟩
  · rw [hcfgt, hcfgt', hcfg]
  · rw [hlent, hlent', hlen]

end Sys2Proof.Machine

/-! PROOFS. Sequences of commands: FREE of every bank (spec/70_reset_and_hazards.md R106) and CREATE
(spec/30_encoding.md R62). -/

namespace Sys2Proof.Machine

open Sys2Proof.Claims

/-! ## Running a list of commands -/

section

variable {s t : State}

/-- A command that completes is followed by the rest. -/
theorem execAll_cons {i : Instr} (h : exec i s = .next t) (is : List Instr) : execAll (i :: is) s = execAll is t := by
  simp only [execAll, h]

theorem execAll_singleton {i : Instr} (h : exec i s = .next t) : execAll [i] s = some t := execAll_cons h []

/-- A list of commands that completes is followed by another. -/
theorem execAll_append {is : List Instr} (h : execAll is s = some t) (js : List Instr) :
    execAll (is ++ js) s = execAll js t := by
  induction is generalizing s with
  | nil =>
    cases h
    rfl
  | cons i is ih =>
    obtain ⟨u, r, hexec, -⟩ := exec_answers i s
    rw [execAll_cons hexec] at h
    rw [List.cons_append, execAll_cons hexec, ih h]

theorem onlyBank_trans {u : State} {b : Nat} (h : OnlyBank b s t) (h' : OnlyBank b t u) : OnlyBank b s u := by
  obtain ⟨hcfg, hinputs, hresponses, hresets, hlen, hbanks⟩ := h
  obtain ⟨hcfg', hinputs', hresponses', hresets', hlen', hbanks'⟩ := h'
  exact ⟨hcfg'.trans hcfg, hinputs'.trans hinputs, hresponses'.trans hresponses, hresets'.trans hresets,
    hlen'.trans hlen, fun b' hb' => (hbanks' b' hb').trans (hbanks b' hb')⟩

/-- A number of words within the limit is what its 64-bit operand stands for: `WMAX` is at most `2^32` (R8). -/
theorem State.Inv.toNat_ofNat {n : Nat} (hs : s.Inv) (hn : n ≤ s.cfg.wmax) : (BitVec.ofNat 64 n).toNat = n := by
  obtain ⟨⟨-, -, -, hmax⟩, -⟩ := hs
  rw [BitVec.toNat_ofNat]
  exact Nat.mod_eq_of_lt (by omega)

/-- A bank number below `NBANKS` is what its 4-bit index stands for: `NBANKS` is at most 16 (R7). -/
theorem State.Inv.toNat_bankIx {b : Nat} (hs : s.Inv) (hb : b < s.cfg.nbanks) : (BitVec.ofNat 4 b).toNat = b := by
  obtain ⟨⟨-, hmax, -⟩, -⟩ := hs
  rw [BitVec.toNat_ofNat]
  exact Nat.mod_eq_of_lt (by omega)

/-! ## FREE of every bank (R106) -/

/-- FREE of the first `n` banks completes, frees them and keeps their words, and leaves the other banks. -/
theorem execAll_free_range (hs : s.Inv) {n : Nat} (hn : n ≤ s.cfg.nbanks) :
    ∃ t, execAll ((List.range n).map fun b => .free (BitVec.ofNat 4 b)) s = some t ∧ t.Inv ∧ t.cfg = s.cfg ∧
      ∀ b, t.bank b = if b < n then ⟨false, 0, 0, (s.bank b).words⟩ else s.bank b := by
  induction n with
  | zero => exact ⟨s, rfl, hs, rfl, fun b => rfl⟩
  | succ n ih =>
    obtain ⟨t, hall, ht, hcfg, hbanks⟩ := ih (by omega)
    have hb : n < t.cfg.nbanks := by rw [hcfg]; omega
    have hix := ht.toNat_bankIx hb
    have hexec := exec_free (bt := BitVec.ofNat 4 n) ht (hix.symm ▸ hb)
    rw [hix] at hexec
    refine ⟨_, ?_, ht.exec hexec, hcfg, fun b => ?_⟩
    · rw [List.range_succ, List.map_append, execAll_append hall]
      exact execAll_singleton hexec
    · rw [State.withResponse_bank, State.setDescriptor_eq, State.bank_setBank, hbanks, hbanks]
      have hlen := ht.lt_length hb
      by_cases hbn : b = n
      · subst hbn
        simp [hlen]
      · simp [hbn, show b < n + 1 ↔ b < n by omega]

end

/-- Settles O49: the banks below `NBANKS` are those that the FREEs of the first `NBANKS` banks free. -/
theorem freeEveryBankReachesAllFree : Obligations.FreeEveryBankReachesAllFree := by
  intro s hs
  obtain ⟨t, hall, -, -, hbanks⟩ := execAll_free_range hs le_rfl
  refine ⟨t, hall, fun b hb => ?_⟩
  simp [State.valid, State.bitlen, State.wcount, State.word, Bank.word, hbanks, hb]

/-! ## CREATE (R62) -/

theorem length_loadWords (bt : BankIx) (ws : List Word) (i : Nat) : (loadWords bt i ws).length = ws.length := by
  induction ws generalizing i with
  | nil => rfl
  | cons w ws ih => rw [loadWords, List.length_cons, ih, List.length_cons]

/-- The LDWs of a list of words into a free bank complete and write them from index `i` on, and nothing else. -/
theorem execAll_loadWords {bt : BankIx} (ws : List Word) {i : Nat} {s : State} (hs : s.Inv)
    (hb : bt.toNat < s.cfg.nbanks) (hv : s.valid bt.toNat = false) (hfit : i + ws.length ≤ s.cfg.wmax) :
    ∃ t, execAll (loadWords bt i ws) s = some t ∧ t.Inv ∧ OnlyBank bt.toNat s t ∧ t.valid bt.toNat = false ∧
      ∀ k, t.word bt.toNat k =
        if i ≤ k ∧ k < i + ws.length then ws.getD (k - i) 0 else s.word bt.toNat k := by
  induction ws generalizing i s with
  | nil => exact ⟨s, rfl, hs, ⟨rfl, rfl, rfl, rfl, rfl, fun _ _ => rfl⟩, hv, fun k => (if_neg (by simp)).symm⟩
  | cons w ws ih =>
    rw [List.length_cons] at hfit
    have hi := hs.toNat_ofNat (n := i) (by omega)
    obtain ⟨-, -, -, hwrites⟩ := ldwWritesOneWord s bt (BitVec.ofNat 64 i) w hs hb
    obtain ⟨u, hexec, -, honly, ⟨hvalid, -⟩, hword, hothers⟩ := hwrites hv (by omega)
    rw [hi] at hword hothers
    have hcfg : u.cfg = s.cfg := honly.1
    obtain ⟨t, hall, ht, honly', hvt, hwords⟩ := ih (i := i + 1) (hs.exec hexec) (hcfg ▸ hb) (hvalid.trans hv)
      (by rw [hcfg]; omega)
    refine ⟨t, (execAll_cons hexec _).trans hall, ht, onlyBank_trans honly honly', hvt, fun k => ?_⟩
    rw [hwords, List.length_cons]
    rcases Nat.lt_trichotomy k i with hk | rfl | hk
    · rw [if_neg (by omega), if_neg (by omega), hothers k (by omega)]
    · rw [if_neg (by omega), if_pos (by omega), hword, Nat.sub_self, List.getD_cons_zero]
    · rw [hothers k (by omega), show k - i = k - (i + 1) + 1 by omega, List.getD_cons_succ]
      exact if_congr (by omega) rfl rfl

/-- The FREE and the LDWs of CREATE complete and leave a free bank that starts with the words. -/
theorem execAll_free_loadWords {s : State} {bt : BankIx} {ws : List Word} (hs : s.Inv) (hb : bt.toNat < s.cfg.nbanks)
    (hfit : ws.length ≤ s.cfg.wmax) :
    ∃ t, execAll (.free bt :: loadWords bt 0 ws) s = some t ∧ t.Inv ∧ OnlyBank bt.toNat s t ∧
      t.valid bt.toNat = false ∧
      ∀ k, t.word bt.toNat k = if k < ws.length then ws.getD k 0 else s.word bt.toNat k := by
  obtain ⟨-, ⟨u, hexec, -, honly, hvalid, -, -, hkeep⟩, -⟩ := freeReleasesTheBank s bt hs hb
  have hcfg : u.cfg = s.cfg := honly.1
  obtain ⟨t, hall, ht, honly', hvt, hwords⟩ := execAll_loadWords ws (i := 0) (hs.exec hexec) (hcfg ▸ hb) hvalid
    (by rw [hcfg]; omega)
  exact ⟨t, (execAll_cons hexec _).trans hall, ht, onlyBank_trans honly honly', hvt, fun k => by simp [hwords, hkeep]⟩

/-- Settles O50: behind the FREE and the LDWs, NEW finds a free bank with the words in place, and answers by its check of
the capacity. -/
theorem createBuildsTheInstance : Obligations.CreateBuildsTheInstance := by
  intro s bt bitLength ws hs hb hfit
  refine ⟨by simp [create, length_loadWords], ?_⟩
  obtain ⟨u, hall, hu, honly, hv, hwords⟩ := execAll_free_loadWords hs hb hfit
  have hcfg : u.cfg = s.cfg := honly.1
  have hcount := hs.toNat_ofNat hfit
  have hrun : ∀ {t}, exec (.new bt bitLength (BitVec.ofNat 64 ws.length)) u = .next t →
      execAll (create bt bitLength ws) s = some t := fun hexec =>
    (execAll_append hall _).trans (execAll_singleton hexec)
  obtain ⟨-, -, -, hlacks, hbuilds⟩ :=
    newConstructsOverTheWords u bt bitLength (BitVec.ofNat 64 ws.length) hu (hcfg ▸ hb)
  rw [hcount, hcfg] at hlacks hbuilds
  rcases Nat.lt_or_ge (ws.length * 64) bitLength.toNat with hcap | hcap
  · obtain ⟨d, hd, hexec⟩ := hlacks hv hfit hcap
    exact ⟨_, hrun hexec, honly, hwords, fun h => absurd h (Nat.not_le.2 hcap), fun _ => ⟨⟨d, rfl, hd⟩, hv⟩⟩
  · obtain ⟨t, hexec, hsucc, honly', hvalid, hbitlen, hwcount, hkeep⟩ := hbuilds hv hfit hcap
    exact ⟨t, hrun hexec, onlyBank_trans honly honly', fun k => (hkeep k).trans (hwords k),
      fun _ => ⟨hsucc, hvalid, hbitlen, hwcount⟩, fun h => absurd h (Nat.not_lt.2 hcap)⟩

end Sys2Proof.Machine
